-- ==== Sys2Proof/Word.lean ====
section
/-! DEFINITION. The word types of the LS-8 core (spec/00_scope.md R8, R9). -/

namespace Sys2Proof

/-- A memory cell, a register, an operand byte, an address 0 to 255 (R8 `CELL_BITS`, `XLEN`; R21, R22, R50). -/
abbrev Byte := BitVec 8

/-- The program counter: 9 bits, so that it can hold the invalid values 256 and 257 that the PC check of the
next cycle reports (10_state.md R27, decision D2). -/
abbrev Pc := BitVec 9

/-- The index of a general register, 0 to 7 (10_state.md R22). -/
abbrev RegIndex := Fin 8

end Sys2Proof
end

