-- ==== Sys2Proof/Machine/Flags.lean ====
section
/-! DEFINITION. The flags register: its bits, what CMP writes, what JEQ and JNE read (spec/10_state.md R30 to R32).
The bit positions are an implementation choice of the source; the spec takes the published layout 0b00000LGE
(decision D3). PRESUMED, unsafe only for a claim about the number in FL (notes/assumptions/3.md). -/

namespace Sys2Proof.Machine.Flags

/-- `FL_E`. -/
def bitE : Nat := 0
/-- `FL_G`. -/
def bitG : Nat := 1
/-- `FL_L`. -/
def bitL : Nat := 2

/-- `FL` with only the given bit set. -/
def only (bit : Nat) : Byte := 1#8 <<< bit

/-- The value CMP writes: exactly one of Equal, Greater, Less, all other bits 0; the comparison is of unsigned
values (42_alu.md R143, R145). -/
def compare (x y : Byte) : Byte :=
  if x.toNat = y.toNat then only bitE
  else if x.toNat > y.toNat then only bitG
  else only bitL

/-- Bit E, the only one any instruction reads (10_state.md R32). -/
def equalSet (fl : Byte) : Bool := fl.getLsbD bitE

end Sys2Proof.Machine.Flags
end

