-- ==== Sys2Proof/Config.lean ====
section
/-! DEFINITION. The implementation parameters of the hardware (spec/00_scope.md R8), the names of the rows of
the instruction table, the four instruction formats, and the one free value of the spec. -/

namespace Sys2Proof

/-- The rows of the instruction table (30_encoding.md R84), as names: the keys of the opcode map `OPC`. -/
inductive Op where
  | nop | ldi | prn | hlt | add | mul | cmp | push | pop | call | ret | jmp | jeq | jne
deriving DecidableEq, Repr

/-- The instruction formats of 30_encoding.md R80: no operand byte; one register; two registers; a register and
an immediate. -/
inductive Format where
  | f0 | f1 | f2r | f2i
deriving DecidableEq, Repr

/-- A map from mnemonic to opcode byte. The spec makes it a configuration field (R84, U12). -/
abbrev OpcodeMap := Op → Byte

/-- What the source demands of an opcode map (R84): the fourteen bytes are distinct and the no-operation is 0. -/
structure OpcodeMap.Valid (m : OpcodeMap) : Prop where
  nop_zero : m .nop = 0
  distinct : ∀ o o' : Op, m o = m o' → o = o'

namespace Config

/-- `MEM_SIZE`: the number of memory cells (R8). -/
abbrev memSize : Nat := 256

/-- What a cell that nothing has written reads as: memory is "zero-initialized" (10_state.md R21, R51). -/
abbrev memReset : Byte := 0x00#8

/-- `SP_RESET`: the reset value of register 7, the top-of-stack sentinel address (R8, R41). -/
abbrev spReset : Byte := 0xF4#8

/-- `PC_RESET`, the fixed entry point (R8, R41). -/
abbrev pcReset : Pc := 0#9

/-- `LOAD_BASE`: the address of the first program byte (R8, R227). -/
abbrev loadBase : Nat := 0

/-- `SP_INDEX`: the register used as stack pointer (R8, R24). -/
abbrev spIndex : RegIndex := 7

/-- `FL_RESET`, the flags register before the first CMP: OPEN in the spec, any 8-bit value, fixed at reset, "never
the value 0 by fiat" (10_state.md R33; 93_implementation_defined.md U1). DESIGN CHOICE, safe: a constant without
a body, so that no proof can see a value of it (notes/assumptions/2.md). -/
opaque flReset : Byte

end Config

end Sys2Proof
end

