-- ==== Sys2Proof/Machine/State.lean ====
section
/-! DEFINITION. The architectural state (spec/10_state.md R20: memory, registers, pc, FL, RUN, ERR, OUT and nothing
else), the reasons a step can stop, and the state after reset (R41). -/

namespace Sys2Proof.Machine

/-- `RUN` (R34). -/
inductive RunState where
  | running
  | halted
deriving DecidableEq, Repr

/-- `ERR`, the fault record (R35, decision D10): why a run ended abnormally, with the pc of the faulting cycle. -/
inductive FaultRecord where
  /-- No fault. With `RUN` = Halted: the run ended by HLT. -/
  | none
  /-- The opcode byte `byte` at address `pc` has no entry in the instruction table (60_exceptions.md R191). -/
  | unsupportedOpcode (pc : Pc) (byte : Byte)
  /-- An address or register index out of range was used in the cycle that began at `pc` (60_exceptions.md R192). -/
  | outOfBounds (pc : Pc)
deriving DecidableEq, Repr

/-- The machine's stops outside its own state: none. Both faults of the hardware are described by the spec as
effects on the state (R197: `ERR` is written and `RUN` becomes Halted), so they are next states, and a cycle is
total (40_loop_and_system.md R122). Nothing raises a value of this type. Safe: a Halted state is
reached instead (notes/assumptions/5.md). -/
inductive Fault where
deriving DecidableEq, Repr

/-- Refusals. No step of a machine whose arms all have a meaning answers one. -/
inductive Refusal where
  /-- Raised by `exec` for an instruction that has no meaning yet (none is left). Safe. -/
  | notModelled (mnemonic : String)
  /-- Raised by the host operation `load` for a program of more than 256 bytes: the load is refused and no run
  starts (70_reset_and_hazards.md R227, decision D15). Safe. -/
  | programTooLong
  /-- Raised by the host session for an interaction at a time R226 does not allow it (a load after the start, a
  start before the load, a cycle before the start). Safe. -/
  | notAllowedNow
deriving DecidableEq, Repr

/-- The complete architectural state (R20). -/
structure State where
  /-- `MEM`: 256 cells (R21), as (address, byte) pairs in canonical form: addresses strictly rising and at most
  255, no entry equal to what an unlisted address reads as (`Memory.wf`). -/
  mem : List Host.Cell
  /-- The register file `x[0]` to `x[7]` (R22); `x[7]` is the stack pointer (R24). -/
  regs : Vector Byte 8
  /-- The program counter (R27). -/
  pc : Pc
  /-- The flags register `FL` (R30). -/
  fl : Byte
  /-- The run state `RUN` (R34). -/
  run : RunState
  /-- The fault record `ERR` (R35). -/
  err : FaultRecord
  /-- The output stream `OUT`, oldest first (R36). -/
  out : List Byte
deriving DecidableEq, Repr

/-- What one instruction or one cycle answers. -/
abbrev StepOutcome := Host.Outcome State Fault Refusal

/-- The state after a reset that draws the value `fl` for the flags register (R33, R41, R220; U1). -/
def State.resetWith (fl : Byte) : State where
  mem := []
  regs := #v[0, 0, 0, 0, 0, 0, 0, Config.spReset]
  pc := Config.pcReset
  fl := fl
  run := .running
  err := .none
  out := []

/-- The state right after reset: R41's values, and for `FL` the open parameter `FL_RESET`
(notes/assumptions/2.md). -/
def State.reset : State := State.resetWith Config.flReset

end Sys2Proof.Machine
end

