-- ==== Sys2Proof/Machine/Ops.lean ====
section
/-! DEFINITION. The named operations over memory, registers, pc and output, and taking a fault. -/

namespace Sys2Proof.Machine

/-! ### Memory as data (spec/20_memory.md) -/

/-- The byte at an address; an unlisted address reads as the reset contents (R21, R51). -/
def Memory.read : List Host.Cell → Nat → Byte
  | [], _ => Config.memReset
  | (k, w) :: rest, a => if k = a then w else Memory.read rest a

/-- Put `v` in front of `rest`, unless it is what an unlisted address reads as. -/
def Memory.cons (a : Nat) (v : Byte) (rest : List Host.Cell) : List Host.Cell :=
  if v = Config.memReset then rest else (a, v) :: rest

/-- Store one byte, keeping the canonical form (R52). -/
def Memory.write : List Host.Cell → Nat → Byte → List Host.Cell
  | [], a, v => Memory.cons a v []
  | (k, w) :: rest, a, v =>
    if a < k then Memory.cons a v ((k, w) :: rest)
    else if a = k then Memory.cons a v rest
    else (k, w) :: Memory.write rest a v

/-- The canonical form above a bound: addresses rise strictly from `lo`, lie below 256 (R50), and no entry
equals what an unlisted address reads as. -/
def Memory.wfFrom : Nat → List Host.Cell → Bool
  | _, [] => true
  | lo, (k, w) :: rest =>
    decide (lo ≤ k) && decide (k < Config.memSize) && decide (w ≠ Config.memReset) && Memory.wfFrom (k + 1) rest

/-- The canonical form of memory. -/
def Memory.wf (m : List Host.Cell) : Bool := Memory.wfFrom 0 m

/-! ### Memory access: `MemRead` and `MemWrite` -/

/-- `MemRead(addr, 1)` (R51). The address is a byte, so the range check of R53 is its caller's. -/
def State.readByte (s : State) (addr : Byte) : Byte := Memory.read s.mem addr.toNat

/-- `MemWrite(addr, 1, v)` (R52). -/
def State.writeByte (s : State) (addr v : Byte) : State := { s with mem := Memory.write s.mem addr.toNat v }

/-- The byte at an address that may lie above 255, where there is no cell (R53). -/
def State.byteAt (s : State) (addr : Nat) : Option Byte :=
  if addr ≤ 255 then some (Memory.read s.mem addr) else none

/-- Store bytes at consecutive addresses from `addr` on; what would lie above 255 has no cell and is left out. -/
def State.placeBytes (s : State) (addr : Nat) : List Byte → State
  | [] => s
  | v :: rest =>
    if addr ≤ 255 then ({ s with mem := Memory.write s.mem addr v } : State).placeBytes (addr + 1) rest else s

/-! ### Registers (spec/10_state.md R22, R23) -/

/-- `x[i]`. -/
def State.reg (s : State) (i : RegIndex) : Byte := s.regs[i]

/-- `x[i] <- v`. -/
def State.setReg (s : State) (i : RegIndex) (v : Byte) : State := { s with regs := s.regs.set i v }

/-- SP, another name of `x[7]` (R23, R24). -/
def State.sp (s : State) : Byte := s.reg Config.spIndex

/-- A push's "decrement SP" (43_stack.md R160): none where SP would leave 0 to 255 (R163, decision D8). -/
def State.decSp (s : State) : Option State :=
  if s.sp.toNat = 0 then none else some (s.setReg Config.spIndex (s.sp - 1))

/-- A pop's "increment SP" (43_stack.md R160): none where SP would leave 0 to 255 (R163, decision D8). -/
def State.incSp (s : State) : Option State :=
  if s.sp.toNat = 255 then none else some (s.setReg Config.spIndex (s.sp + 1))

/-! ### Program counter (spec/10_state.md R27 to R29) -/

/-- Advance the pc by the instruction's length, in 9 bits (R28, R29). -/
def State.advance (s : State) (n : Nat) : State := { s with pc := s.pc + BitVec.ofNat 9 n }

/-- Redirect the pc to an 8-bit target, zero-extended (R29). -/
def State.jumpTo (s : State) (target : Byte) : State := { s with pc := target.setWidth 9 }

/-- `FL <- v` (R30). -/
def State.setFlags (s : State) (v : Byte) : State := { s with fl := v }

/-! ### Output and end of run -/

/-- `Emit(v)`: append to the output stream (41_load_and_print.md R132). -/
def State.emit (s : State) (v : Byte) : State := { s with out := s.out ++ [v] }

/-- `RUN <- Halted` (40_loop_and_system.md R117). -/
def State.halt (s : State) : State := { s with run := .halted }

/-- Taking a fault, the ONE operation for both kinds (60_exceptions.md R197; R115, R191, R192): the fault is
recorded with the pc, `RUN` becomes Halted, and nothing else changes. The hardware has no return from a fault
(R198): there is no operation beside this one that undoes it, and only a reset leaves Halted (R120). -/
def State.raise (s : State) (r : FaultRecord) : State := { s with err := r, run := .halted }

/-- How an instruction ends: `checked` is its effect, or `none` where one of its checks failed, in which case it
raises OutOfBounds from the state at the start of the cycle, so that no partial effect is left (R115,
decision D7). -/
def State.orOutOfBounds (s : State) (checked : Option State) : StepOutcome :=
  .next (checked.getD (s.raise (.outOfBounds s.pc)))

end Sys2Proof.Machine
end

