-- ==== Sys2Proof/Machine/Operands.lean ====
section
/-! DEFINITION. The operand forms: the use of an operand byte and its use as a register index. `none` is an
OutOfBounds condition of 60_exceptions.md R192. -/

namespace Sys2Proof.Machine

/-- `OperandA()` (40_loop_and_system.md R112): the use of the operand byte at pc + 1 raises OutOfBounds if that
address exceeds 255. -/
def State.operandA (s : State) (a : Byte) : Option Byte := if s.pc.toNat + 1 > 255 then none else some a

/-- `OperandB()` (R112): the same for the operand byte at pc + 2. -/
def State.operandB (s : State) (b : Byte) : Option Byte := if s.pc.toNat + 2 > 255 then none else some b

/-- `RegIdx(b)` (10_state.md R26): the whole byte is the register index; above 7 it raises OutOfBounds and is
neither masked nor clamped. -/
def regIndex (b : Byte) : Option RegIndex := if h : b.toNat < 8 then some ⟨b.toNat, h⟩ else none

/-- The operand of format F1: operand_a as a register index (30_encoding.md R80). -/
def State.operandReg (s : State) (a : Byte) : Option RegIndex := do
  let a ← s.operandA a
  regIndex a

/-- The operands of format F2R: two register indices, both bytes used before either index is checked (the order
of R141 to R143). -/
def State.operandRegReg (s : State) (a b : Byte) : Option (RegIndex × RegIndex) := do
  let a ← s.operandA a
  let b ← s.operandB b
  let d ← regIndex a
  let r ← regIndex b
  pure (d, r)

/-- The operands of format F2I: a register index and an immediate, the byte as it stands (R83). -/
def State.operandRegImm (s : State) (a b : Byte) : Option (RegIndex × Byte) := do
  let a ← s.operandA a
  let b ← s.operandB b
  let d ← regIndex a
  pure (d, b)

end Sys2Proof.Machine
end

