-- ==== Sys2Proof/Machine/Alu.lean ====
section
/-! DEFINITION. The ALU and its three instructions (spec/42_alu.md). -/

namespace Sys2Proof.Machine

/-- The ALU's operations: exactly three (R140), so that no other opcode can be routed to it (40_loop_and_system.md
R119). -/
inductive AluOp where
  | add | mul | cmp
deriving DecidableEq, Repr

/-- "A new register value or a flag update" (R140). -/
inductive AluResult where
  | value (v : Byte)
  | flags (fl : Byte)
deriving DecidableEq, Repr

/-- The ALU: a pure function of two register values. Sum and product are computed exactly and reduced modulo 256
(R146); the operands are unsigned (R145). -/
def alu : AluOp → Byte → Byte → AluResult
  | .add, x, y => .value (BitVec.ofNat 8 (x.toNat + y.toNat))
  | .mul, x, y => .value (BitVec.ofNat 8 (x.toNat * y.toNat))
  | .cmp, x, y => .flags (Flags.compare x y)

/-- Write an ALU result: to the destination register or to FL (R140). -/
def State.writeAlu (s : State) (d : RegIndex) : AluResult → State
  | .value v => s.setReg d v
  | .flags fl => s.setFlags fl

/-- The shared course of the ALU instructions: both source values are read before the destination is written
(R144), and the pc advances by 3 (R140). -/
def aluInstruction (op : AluOp) (a b : Byte) (s : State) : StepOutcome :=
  s.orOutOfBounds do
    let (d, r) ← s.operandRegReg a b
    pure ((s.writeAlu d (alu op (s.reg d) (s.reg r))).advance 3)

/-- ADD (R141). -/
def execAdd (a b : Byte) (s : State) : StepOutcome := aluInstruction .add a b s

/-- MUL (R142). -/
def execMul (a b : Byte) (s : State) : StepOutcome := aluInstruction .mul a b s

/-- CMP (R143). -/
def execCmp (a b : Byte) (s : State) : StepOutcome := aluInstruction .cmp a b s

end Sys2Proof.Machine
end

