-- ==== Sys2Proof/Machine/Control.lean ====
section
/-! DEFINITION. Control transfer (spec/44_control_transfer.md): CALL, RET, JMP, JEQ, JNE. -/

namespace Sys2Proof.Machine

/-- CALL's return address `pc + 2`: none where it is neither a byte nor a valid address (R171, decision D9). -/
def State.returnAddress (s : State) : Option Byte :=
  if s.pc.toNat + 2 > 255 then none else some (BitVec.ofNat 8 (s.pc.toNat + 2))

/-- CALL (R171): the target is read after SP is decremented (decision D19). -/
def execCall (a : Byte) (s : State) : StepOutcome :=
  s.orOutOfBounds do
    let r ← s.operandReg a
    let ra ← s.returnAddress
    let t ← s.decSp
    pure ((t.writeByte t.sp ra).jumpTo (t.reg r))

/-- RET (R172): "read then advance SP"; the stack byte itself is not changed. -/
def execRet (s : State) : StepOutcome :=
  s.orOutOfBounds do
    let t ← s.incSp
    pure (t.jumpTo (s.readByte s.sp))

/-- A jump to the address in a register. -/
def State.jumpReg (s : State) (a : Byte) : Option State := do
  let r ← s.operandReg a
  pure (s.jumpTo (s.reg r))

/-- A jump that is taken if `taken` holds; otherwise no operand is used and the pc advances by 2 (R174, R175,
decision D20). -/
def State.branch (s : State) (taken : Bool) (a : Byte) : Option State :=
  if taken then s.jumpReg a else some (s.advance 2)

/-- JMP (R173). -/
def execJmp (a : Byte) (s : State) : StepOutcome := s.orOutOfBounds (s.jumpReg a)

/-- JEQ (R174): branches if bit E is set. -/
def execJeq (a : Byte) (s : State) : StepOutcome := s.orOutOfBounds (s.branch (Flags.equalSet s.fl) a)

/-- JNE (R175): branches if bit E is clear, whatever the other bits hold. -/
def execJne (a : Byte) (s : State) : StepOutcome := s.orOutOfBounds (s.branch (!Flags.equalSet s.fl) a)

end Sys2Proof.Machine
end

