-- ==== Sys2Proof/Machine/LoadPrint.lean ====
section
/-! DEFINITION. Load immediate and print (spec/41_load_and_print.md). -/

namespace Sys2Proof.Machine

/-- LDI (R130). -/
def execLdi (a b : Byte) (s : State) : StepOutcome :=
  s.orOutOfBounds do
    let (d, imm) ← s.operandRegImm a b
    pure ((s.setReg d imm).advance 3)

/-- PRN (R131). -/
def execPrn (a : Byte) (s : State) : StepOutcome :=
  s.orOutOfBounds do
    let r ← s.operandReg a
    pure ((s.emit (s.reg r)).advance 2)

end Sys2Proof.Machine
end

