-- ==== Sys2Proof/Machine/Stack.lean ====
section
/-! DEFINITION. PUSH and POP (spec/43_stack.md), in the literal order of effects of the source's table (decision
D19). -/

namespace Sys2Proof.Machine

/-- PUSH (R161): the register is read after SP is decremented, so PUSH R7 stores the new SP. -/
def execPush (a : Byte) (s : State) : StepOutcome :=
  s.orOutOfBounds do
    let r ← s.operandReg a
    let t ← s.decSp
    pure ((t.writeByte t.sp (t.reg r)).advance 2)

/-- POP (R162): the register is written before SP is incremented, so POP R7 leaves the popped byte plus 1 in SP,
and the range check of R163 is on the value the increment starts from. -/
def execPop (a : Byte) (s : State) : StepOutcome :=
  s.orOutOfBounds do
    let d ← s.operandReg a
    let t ← (s.setReg d (s.readByte s.sp)).incSp
    pure (t.advance 2)

end Sys2Proof.Machine
end

