-- ==== Sys2Proof/Machine/System.lean ====
section
/-! DEFINITION. The system instructions NOP and HLT (spec/40_loop_and_system.md). -/

namespace Sys2Proof.Machine

/-- NOP (R116). -/
def execNop (s : State) : StepOutcome := .next (s.advance 1)

/-- HLT (R117): the pc is not advanced and ERR stays as it is. -/
def execHlt (s : State) : StepOutcome := .next s.halt

end Sys2Proof.Machine
end

