-- ==== Sys2Proof/Syntax.lean ====
section
/-! DEFINITION. The instruction as syntax: one constructor per row of spec/opcode_table.json. Operands are kept as
the whole operand bytes `a` (at pc + 1) and `b` (at pc + 2), since a register operand is the whole byte and is
neither masked nor refused at decode (30_encoding.md R80, R82, R89). -/

namespace Sys2Proof

inductive Instr where
  /-- NOP, the opcode byte 0 (R116). -/
  | nop
  /-- LDI reg, immediate (R130). -/
  | ldi (a b : Byte)
  /-- PRN reg (R131). -/
  | prn (a : Byte)
  /-- HLT (R117). -/
  | hlt
  /-- ADD regA, regB (R141). -/
  | add (a b : Byte)
  /-- MUL regA, regB (R142). -/
  | mul (a b : Byte)
  /-- CMP regA, regB (R143). -/
  | cmp (a b : Byte)
  /-- PUSH reg (R161). -/
  | push (a : Byte)
  /-- POP reg (R162). -/
  | pop (a : Byte)
  /-- CALL reg (R171). -/
  | call (a : Byte)
  /-- RET (R172). -/
  | ret
  /-- JMP reg (R173). -/
  | jmp (a : Byte)
  /-- JEQ reg (R174). -/
  | jeq (a : Byte)
  /-- JNE reg (R175). -/
  | jne (a : Byte)
deriving DecidableEq, Repr

end Sys2Proof
end

