-- ==== Sys2Proof/WellFormed.lean ====
section
/-! DEFINITION. Well-formed instructions: every register operand byte holds a register index 0 to 7 (30_encoding.md
R80, 70_reset_and_hazards.md R224 row 7). The immediate of LDI takes every value (R83). The decoder does not
check this (R89): the bytes 8 to 255 are the same instruction with a faulting operand (R82). -/

namespace Sys2Proof

/-- The byte holds a register index (R80, R82). -/
def regByteOk (a : Byte) : Bool := decide (a.toNat ≤ 7)

/-- Every register operand of the instruction holds a register index. -/
def Instr.wf : Instr → Bool
  | .nop => true
  | .ldi a _ => regByteOk a
  | .prn a => regByteOk a
  | .hlt => true
  | .add a b => regByteOk a && regByteOk b
  | .mul a b => regByteOk a && regByteOk b
  | .cmp a b => regByteOk a && regByteOk b
  | .push a => regByteOk a
  | .pop a => regByteOk a
  | .call a => regByteOk a
  | .ret => true
  | .jmp a => regByteOk a
  | .jeq a => regByteOk a
  | .jne a => regByteOk a

end Sys2Proof
end

