-- ==== Sys2Proof/Decode.lean ====
section
/-! DEFINITION. The opcode map, the decoder, and after it the encoder (spec/30_encoding.md). Decoder and encoder
are written over any opcode map, as R84 and U12 ask; `decode` and `encode` are their instances at `opc`. -/

namespace Sys2Proof

/-- The opcode map `OPC` of R84. Only NOP's 0 is the source's; the thirteen other bytes are the published LS-8
values, which the spec supplies from general knowledge (decision D5). PRESUMED, unsafe
(notes/assumptions/1.md). -/
def opc : OpcodeMap
  | .nop  => 0b00000000#8
  | .ldi  => 0b10000010#8
  | .prn  => 0b01000111#8
  | .hlt  => 0b00000001#8
  | .add  => 0b10100000#8
  | .mul  => 0b10100010#8
  | .cmp  => 0b10100111#8
  | .push => 0b01000101#8
  | .pop  => 0b01000110#8
  | .call => 0b01010000#8
  | .ret  => 0b00010001#8
  | .jmp  => 0b01010100#8
  | .jeq  => 0b01010101#8
  | .jne  => 0b01010110#8

/-- The rows of the table in the order of R84. -/
def Op.all : List Op :=
  [.nop, .ldi, .prn, .hlt, .add, .mul, .cmp, .push, .pop, .call, .ret, .jmp, .jeq, .jne]

/-- The format of each row (R80, R84). -/
def Op.format : Op → Format
  | .nop => .f0 | .hlt => .f0 | .ret => .f0
  | .prn => .f1 | .push => .f1 | .pop => .f1 | .call => .f1 | .jmp => .f1 | .jeq => .f1 | .jne => .f1
  | .add => .f2r | .mul => .f2r | .cmp => .f2r
  | .ldi => .f2i

/-- The number of bytes of each format (R80). -/
def Format.length : Format → Nat
  | .f0 => 1 | .f1 => 2 | .f2r => 3 | .f2i => 3

/-- The length of an instruction, a function of its opcode alone (R81). -/
def Op.length (o : Op) : Nat := o.format.length

/-- The lookup of an opcode byte in the table (40_loop_and_system.md R113): `none` for an unsupported opcode. -/
def Op.ofByte (m : OpcodeMap) (b : Byte) : Option Op := Op.all.find? fun o => m o == b

/-- The instruction of a row with the operand bytes `a`, `b`; a byte the format has no place for is dropped
(20_memory.md R67, R68). -/
def Op.instr : Op → Byte → Byte → Instr
  | .nop, _, _ => .nop
  | .ldi, a, b => .ldi a b
  | .prn, a, _ => .prn a
  | .hlt, _, _ => .hlt
  | .add, a, b => .add a b
  | .mul, a, b => .mul a b
  | .cmp, a, b => .cmp a b
  | .push, a, _ => .push a
  | .pop, a, _ => .pop a
  | .call, a, _ => .call a
  | .ret, _, _ => .ret
  | .jmp, a, _ => .jmp a
  | .jeq, a, _ => .jeq a
  | .jne, a, _ => .jne a

/-- The row an instruction belongs to. -/
def Instr.op : Instr → Op
  | .nop => .nop
  | .ldi _ _ => .ldi
  | .prn _ => .prn
  | .hlt => .hlt
  | .add _ _ => .add
  | .mul _ _ => .mul
  | .cmp _ _ => .cmp
  | .push _ => .push
  | .pop _ => .pop
  | .call _ => .call
  | .ret => .ret
  | .jmp _ => .jmp
  | .jeq _ => .jeq
  | .jne _ => .jne

/-- Why a list of bytes decodes to no instruction. -/
inductive DecodeError where
  /-- There is no opcode byte. -/
  | noBytes
  /-- The opcode byte is not in the table (R87); no operand byte is looked at. -/
  | unsupportedOpcode (byte : Byte)
  /-- The list ends before the instruction's last operand byte. -/
  | missingOperand (op : Op)
deriving DecidableEq, Repr

/-- Decoding under any opcode map, total on any bytes: the instruction and the bytes after it, or a rejection by
name. The opcode alone chooses the row and the length (R81, R113); the operand bytes follow in order (R55). -/
def decodeWith (m : OpcodeMap) : List Byte → Except DecodeError (Instr × List Byte)
  | [] => .error .noBytes
  | byte :: operands =>
    match Op.ofByte m byte with
    | none => .error (.unsupportedOpcode byte)
    | some o =>
      match o.format, operands with
      | .f0, rest => .ok (o.instr 0 0, rest)
      | .f1, a :: rest => .ok (o.instr a 0, rest)
      | .f2r, a :: b :: rest => .ok (o.instr a b, rest)
      | .f2i, a :: b :: rest => .ok (o.instr a b, rest)
      | _, _ => .error (.missingOperand o)

/-- The decoder of the hardware: the opcode map is R84's. -/
def decode (bytes : List Byte) : Except DecodeError (Instr × List Byte) := decodeWith opc bytes

/-- Encoding under any opcode map (R80: opcode byte, operand_a, operand_b). -/
def encodeWith (m : OpcodeMap) : Instr → List Byte
  | .nop => [m .nop]
  | .ldi a b => [m .ldi, a, b]
  | .prn a => [m .prn, a]
  | .hlt => [m .hlt]
  | .add a b => [m .add, a, b]
  | .mul a b => [m .mul, a, b]
  | .cmp a b => [m .cmp, a, b]
  | .push a => [m .push, a]
  | .pop a => [m .pop, a]
  | .call a => [m .call, a]
  | .ret => [m .ret]
  | .jmp a => [m .jmp, a]
  | .jeq a => [m .jeq, a]
  | .jne a => [m .jne, a]

/-- The bytes of an instruction under R84's opcode map. -/
def encode (i : Instr) : List Byte := encodeWith opc i

/-- Byte `k` of an instruction whose bits are `w`, bit 0 the least significant bit of its first byte, as
spec/opcode_table.json numbers them; bits from `nbits` on are 0. -/
def tableByte (nbits w k : Nat) : Byte := BitVec.ofNat 8 ((w % 2 ^ nbits) >>> (8 * k))

/-- The bytes of a table word, up to the longest instruction (R8 `MAX_INSN_LEN` = 3), lowest address first. -/
def tableBytes (nbits w : Nat) : List Byte :=
  [tableByte nbits w 0, tableByte nbits w 1, tableByte nbits w 2]

/-- The instruction the decoder reads from a table word. -/
def decodeTableWord (nbits w : Nat) : Option Instr :=
  match decode (tableBytes nbits w) with
  | .ok (i, _) => some i
  | .error _ => none

/-- The mnemonic of a row as the assembler syntax spells it (R90, decision D21). -/
def Op.mnemonic : Op → String
  | .nop => "NOP" | .ldi => "LDI" | .prn => "PRN" | .hlt => "HLT"
  | .add => "ADD" | .mul => "MUL" | .cmp => "CMP" | .push => "PUSH" | .pop => "POP"
  | .call => "CALL" | .ret => "RET" | .jmp => "JMP" | .jeq => "JEQ" | .jne => "JNE"

/-- An operand byte as a register name `R0`, `R1`, ...; a byte above 7 prints with its own number, since it is
not masked (R82, R90). -/
def regName (a : Byte) : String := "R" ++ toString a.toNat

/-- The assembler text of an instruction: `MNEMONIC Ra,Rb`, `MNEMONIC Ra`, `LDI Ra,imm` or the bare mnemonic,
immediates in decimal (R90). -/
def Instr.asm (i : Instr) : String :=
  match i with
  | .nop | .hlt | .ret => i.op.mnemonic
  | .ldi a b => i.op.mnemonic ++ " " ++ regName a ++ "," ++ toString b.toNat
  | .add a b | .mul a b | .cmp a b => i.op.mnemonic ++ " " ++ regName a ++ "," ++ regName b
  | .prn a | .push a | .pop a | .call a | .jmp a | .jeq a | .jne a => i.op.mnemonic ++ " " ++ regName a

end Sys2Proof
end

