-- ==== Sys2Proof/Machine/Fetch.lean ====
section
/-! DEFINITION. The first parts of a cycle (spec/40_loop_and_system.md R110): the PC check (R111), the fetch (R112)
and the decode (R113); and what a Halted core does (R120). -/

namespace Sys2Proof.Machine

/-- The three bytes of the eager fetch, at pc, pc + 1 and pc + 2, read from memory as it is at the start of the
cycle (R112; 20_memory.md R62, R65). Where an operand byte's address exceeds 255 there is no byte: `filler`
stands there, and no instruction uses it, since the use of that operand raises OutOfBounds (R67, decision D6). -/
def State.fetchBytes (s : State) (filler : Byte) : List Byte :=
  [(s.byteAt s.pc.toNat).getD filler,
   (s.byteAt (s.pc.toNat + 1)).getD filler,
   (s.byteAt (s.pc.toNat + 2)).getD filler]

/-- The fault a rejection of the decoder stands for in the cycle at `pc`. Only an unsupported opcode can occur:
the fetch gives three bytes and no instruction is longer. -/
def DecodeError.toFault (pc : Pc) : DecodeError → FaultRecord
  | .unsupportedOpcode byte => .unsupportedOpcode pc byte
  | .noBytes => .outOfBounds pc
  | .missingOperand _ => .outOfBounds pc

/-- PC check, fetch and decode: the instruction to execute, or the fault to raise (R111, R113, R118; the order is
60_exceptions.md R196's). -/
def State.fetchDecode (s : State) : Except FaultRecord Instr :=
  if s.pc.toNat > 255 then .error (.outOfBounds s.pc)
  else
    match decode (s.fetchBytes 0) with
    | .ok (i, _) => .ok i
    | .error e => .error (DecodeError.toFault s.pc e)

/-- A Halted core has no further cycle: nothing changes (R120; 10_state.md R43). The model answers the same state
again (notes/assumptions/4.md). -/
def State.idle (s : State) : StepOutcome := .next s

end Sys2Proof.Machine
end

