-- ==== Sys2Proof/Machine/Step.lean ====
section
/-! DEFINITION. One cycle of the machine (spec/40_loop_and_system.md R110). -/

namespace Sys2Proof.Machine

/-- One cycle: PC check, fetch, decode, execute with pc update; a fault is taken by `State.raise`. -/
def step (s : State) : Host.Outcome State Fault Refusal :=
  match s.run with
  | .halted => s.idle
  | .running =>
    match s.fetchDecode with
    | .ok i => exec i s
    | .error r => .next (s.raise r)

/-- `s` with the instruction whose bits are `w` (numbered as spec/opcode_table.json numbers them, bits from
`nbits` on 0) stored where the next fetch reads: at pc, pc + 1, pc + 2. Bytes that would lie above 255 have no
cell. Nothing else changes (notes/assumptions/16.md). -/
def State.withFetchWord (s : State) (nbits w : Nat) : State := s.placeBytes s.pc.toNat (tableBytes nbits w)

end Sys2Proof.Machine
end

