-- ==== Sys2Proof/Machine/Boundary.lean ====
section
/-! DEFINITION. The host interface (spec/70_reset_and_hazards.md section 4): reset, load, start, output, debug read,
status, and the order in which R226 allows them. The output interaction is the field `out` itself (R229). -/

namespace Sys2Proof.Machine

/-- The loader's writes (R227): the bytes from address 0 on, then SP. -/
def State.loadProgram (s : State) (program : List Byte) : State :=
  (s.placeBytes Config.loadBase program).setReg Config.spIndex Config.spReset

/-- Load (R227): a program longer than memory is refused (decision D15). -/
def load (program : List Byte) (s : State) : StepOutcome :=
  if program.length ≤ Config.memSize then .next (s.loadProgram program) else .refused .programTooLong

/-- What the debug port reports (R230): pc and the three bytes the next fetch will read, absent above 255
(decision D17). -/
structure DebugView where
  pc : Pc
  byte0 : Option Byte
  byte1 : Option Byte
  byte2 : Option Byte
deriving DecidableEq, Repr

/-- The debug read (R230). It is a function of the state, so it cannot change it. -/
def State.debugRead (s : State) : DebugView where
  pc := s.pc
  byte0 := s.byteAt s.pc.toNat
  byte1 := s.byteAt (s.pc.toNat + 1)
  byte2 := s.byteAt (s.pc.toNat + 2)

/-- What the status interface reports (R231). -/
structure Status where
  run : RunState
  err : FaultRecord
  pc : Pc
deriving DecidableEq, Repr

/-- The status read (R231). -/
def State.status (s : State) : Status := ⟨s.run, s.err, s.pc⟩

/-- The cause codes of 60_exceptions.md R194 (decision D10). -/
def FaultRecord.code : FaultRecord → Nat
  | .none => 0
  | .unsupportedOpcode _ _ => 1
  | .outOfBounds _ => 2

/-- The exit contract (60_exceptions.md R200), with the codes of R194 as status values (decision D10); none while
the run has not ended. -/
def Status.exitStatus (t : Status) : Option Nat :=
  match t.run with
  | .running => none
  | .halted => some t.err.code

/-- Where a session stands between reset and run (R221, R226, R228). -/
inductive Phase where
  /-- After reset: a load is allowed. -/
  | afterReset
  /-- After the load: a start is allowed. -/
  | loaded
  /-- After the start: cycles happen, and the host has no move but reset. -/
  | started
deriving DecidableEq, Repr

/-- The core with the phase of its host protocol. The phase is the host's, not part of the core's state (R20). -/
structure Session where
  phase : Phase
  core : State
deriving DecidableEq, Repr

/-- The moves of a session. Output, debug read and status carry state out and change nothing (R226). -/
inductive Move where
  /-- Reset, drawing a value for the flags register (R220, R33). -/
  | reset (fl : Byte)
  /-- Load a program (R227). -/
  | load (program : List Byte)
  /-- Start the run (R228). -/
  | start
  /-- One cycle of the core. -/
  | cycle
deriving DecidableEq, Repr

/-- Put a core outcome back into its session. -/
def Session.lift (phase : Phase) : StepOutcome → Host.Outcome Session Fault Refusal
  | .next s => .next ⟨phase, s⟩
  | .fault r => .fault r
  | .refused r => .refused r

/-- The moves R226 allows in each phase: reset at any time; load after reset and before start, once; start after
load; cycles after start (R221: no cycle happens before the loader has finished). -/
def Session.move (x : Session) (m : Move) : Host.Outcome Session Fault Refusal :=
  match m, x.phase with
  | .reset fl, _ => .next ⟨.afterReset, State.resetWith fl⟩
  | .load program, .afterReset => Session.lift .loaded (load program x.core)
  | .start, .loaded => .next ⟨.started, x.core⟩
  | .cycle, .started => Session.lift .started (step x.core)
  | .load _, .loaded => .refused .notAllowedNow
  | .load _, .started => .refused .notAllowedNow
  | .start, .afterReset => .refused .notAllowedNow
  | .start, .started => .refused .notAllowedNow
  | .cycle, .afterReset => .refused .notAllowedNow
  | .cycle, .loaded => .refused .notAllowedNow

end Sys2Proof.Machine
end

