-- ==== Sys2Proof/Safety.lean ====
section
/-! DEFINITION. How a run ends, and what is true of every state a run reaches, in the terms claims use. -/

namespace Sys2Proof.Machine

/-- The run has ended normally: HLT was executed (spec/40_loop_and_system.md R120; 10_state.md R35). -/
def State.EndedByHlt (s : State) : Prop := s.run = .halted ∧ s.err = .none

/-- The run has failed: a fault was recorded (60_exceptions.md R198). -/
def State.Failed (s : State) : Prop := s.run = .halted ∧ s.err ≠ .none

/-- FL is what a CMP leaves: exactly one of Equal, Greater, Less and no other bit (10_state.md R30). -/
def Flags.OneHot (fl : Byte) : Prop :=
  fl = Flags.only Flags.bitE ∨ fl = Flags.only Flags.bitG ∨ fl = Flags.only Flags.bitL

/-- Run state and fault record fit the rest of the state (10_state.md R35, R43 (d)): a Running core has recorded no
fault; a core Halted without a fault stands at a HLT opcode (40_loop_and_system.md R117); a recorded fault is of the
present pc, and an unsupported opcode is the byte that stands there and has no entry in the table (R118). -/
def State.EndFits (s : State) : Prop :=
  match s.run, s.err with
  | .running, r => r = .none
  | .halted, .none => ∃ byte, s.byteAt s.pc.toNat = some byte ∧ Op.ofByte opc byte = some .hlt
  | .halted, .unsupportedOpcode p byte =>
    p = s.pc ∧ s.byteAt s.pc.toNat = some byte ∧ Op.ofByte opc byte = Option.none
  | .halted, .outOfBounds p => p = s.pc

/-- The invariants of 10_state.md R43 that are about one state, for a run that began with `fl0` in FL, and the
canonical form of memory. (Registers and cells are in 0 to 255 by their type; R43 (e) and (f) are about steps.) -/
structure State.Inv (fl0 : Byte) (s : State) : Prop where
  /-- Memory is in canonical form, all of it at addresses 0 to 255. -/
  mem_wf : Memory.wf s.mem = true
  /-- R43 (b): pc ≤ 257. -/
  pc_le : s.pc.toNat ≤ 257
  /-- R43 (c): FL is FL_RESET or what a CMP left. -/
  flags : s.fl = fl0 ∨ Flags.OneHot s.fl
  /-- R43 (d), R35: run state and fault record fit. -/
  end_fits : s.EndFits

/-- `k` cycles of the core from `s`. -/
def runFrom (k : Nat) (s : State) : StepOutcome := Sys2Proof.core.run k s

/-- The result of a run that has ended (70_reset_and_hazards.md R232): the fault record, pc, output, registers and
memory of the first Halted state; none while it is Running. -/
structure RunResult where
  err : FaultRecord
  pc : Pc
  out : List Byte
  regs : Vector Byte 8
  mem : List Host.Cell
deriving DecidableEq, Repr

/-- The result a state stands for (R232). -/
def State.result (s : State) : Option RunResult :=
  match s.run with
  | .running => none
  | .halted => some ⟨s.err, s.pc, s.out, s.regs, s.mem⟩

end Sys2Proof.Machine
end

