-- ==== Sys2Proof/Certificates/Slice0/Obligations.lean ====
section
/-! DEFINITION. The statements for the provers. Each docstring says which rule of spec/ it formalises, and which of
its clauses rest on a decision of the spec (D<n> of 92_eei_decisions.md) or a choice of the model
(notes/assumptions/<n>.md). -/

open Sys2Proof Sys2Proof.Machine

namespace Sys2Proof.Claims

/-- Every register but those listed keeps its value. -/
def RegsKept (but : List RegIndex) (s t : State) : Prop := ∀ i : RegIndex, i ∉ but → t.reg i = s.reg i

/-- Every byte of memory reads as before. -/
def MemKept (s t : State) : Prop := ∀ a : Byte, t.readByte a = s.readByte a

/-- Every byte of memory but the one at `addr` reads as before. -/
def MemKeptBut (addr : Byte) (s t : State) : Prop := ∀ a : Byte, a ≠ addr → t.readByte a = s.readByte a

/-- Run state, fault record, flags and output are as before. -/
def ControlKept (s t : State) : Prop := t.run = s.run ∧ t.err = s.err ∧ t.fl = s.fl ∧ t.out = s.out

/-- The fault `r` was taken from `s`: only RUN and ERR have changed. -/
def FaultTaken (r : FaultRecord) (s t : State) : Prop :=
  t.run = .halted ∧ t.err = r ∧ t.regs = s.regs ∧ t.mem = s.mem ∧ t.fl = s.fl ∧ t.pc = s.pc ∧ t.out = s.out

/-- The instruction takes OutOfBounds from `s`. -/
def RaisesOutOfBounds (i : Instr) (s : State) : Prop :=
  ∃ t, exec i s = .next t ∧ FaultTaken (.outOfBounds s.pc) s t

/-- Each of the instructions takes OutOfBounds from `s`. -/
def RaisesAll (is : List Instr) (s : State) : Prop := ∀ i ∈ is, RaisesOutOfBounds i s

/-- `i` writes register `j`: its destination, or SP where the instruction moves it (R140, R160, R161, R162, R171,
R172). -/
def WritesReg (j : RegIndex) : Instr → Prop
  | .ldi a _ => a.toNat = j
  | .add a _ => a.toNat = j
  | .mul a _ => a.toNat = j
  | .push _ => j = 7
  | .pop a => a.toNat = j ∨ j = 7
  | .call _ => j = 7
  | .ret => j = 7
  | .nop => False
  | .prn _ => False
  | .hlt => False
  | .cmp _ _ => False
  | .jmp _ => False
  | .jeq _ => False
  | .jne _ => False

/-- The instruction stores to memory: PUSH and CALL only (R21). -/
def Stores : Instr → Prop
  | .push _ => True
  | .call _ => True
  | .nop => False
  | .ldi _ _ => False
  | .prn _ => False
  | .hlt => False
  | .add _ _ => False
  | .mul _ _ => False
  | .cmp _ _ => False
  | .pop _ => False
  | .ret => False
  | .jmp _ => False
  | .jeq _ => False
  | .jne _ => False

/-- The instruction reads memory as data: POP and RET only (R21). -/
def ReadsData : Instr → Prop
  | .pop _ => True
  | .ret => True
  | .nop => False
  | .ldi _ _ => False
  | .prn _ => False
  | .hlt => False
  | .add _ _ => False
  | .mul _ _ => False
  | .cmp _ _ => False
  | .push _ => False
  | .call _ => False
  | .jmp _ => False
  | .jeq _ => False
  | .jne _ => False

/-- The pc after an instruction that took no fault (R28). For JMP, CALL and a taken branch it is the register the
operand names, as it stands after the instruction. -/
def PcRule (s t : State) : Instr → Prop
  | .nop => t.pc.toNat = s.pc.toNat + 1
  | .prn _ => t.pc.toNat = s.pc.toNat + 2
  | .push _ => t.pc.toNat = s.pc.toNat + 2
  | .pop _ => t.pc.toNat = s.pc.toNat + 2
  | .ldi _ _ => t.pc.toNat = s.pc.toNat + 3
  | .add _ _ => t.pc.toNat = s.pc.toNat + 3
  | .mul _ _ => t.pc.toNat = s.pc.toNat + 3
  | .cmp _ _ => t.pc.toNat = s.pc.toNat + 3
  | .hlt => t.pc = s.pc
  | .jmp a => ∃ r : RegIndex, a.toNat = r ∧ t.pc.toNat = (t.reg r).toNat
  | .call a => ∃ r : RegIndex, a.toNat = r ∧ t.pc.toNat = (t.reg r).toNat
  | .ret => t.pc.toNat = (s.readByte s.sp).toNat
  | .jeq a =>
    if Flags.equalSet s.fl = true then ∃ r : RegIndex, a.toNat = r ∧ t.pc.toNat = (t.reg r).toNat
    else t.pc.toNat = s.pc.toNat + 2
  | .jne a =>
    if Flags.equalSet s.fl = true then t.pc.toNat = s.pc.toNat + 2
    else ∃ r : RegIndex, a.toNat = r ∧ t.pc.toNat = (t.reg r).toNat

/-- The instruction of row `o` uses operand_a in state `s` (20_memory.md R67). -/
def UsesA (s : State) : Op → Prop
  | .nop => False
  | .hlt => False
  | .ret => False
  | .jeq => Flags.equalSet s.fl = true
  | .jne => Flags.equalSet s.fl = false
  | .ldi => True
  | .prn => True
  | .add => True
  | .mul => True
  | .cmp => True
  | .push => True
  | .pop => True
  | .call => True
  | .jmp => True

/-- The instruction of row `o` uses operand_b (20_memory.md R67). -/
def UsesB (o : Op) : Prop := o = .ldi ∨ o = .add ∨ o = .mul ∨ o = .cmp

/-- Conditions 2 to 7 of 60_exceptions.md R192 for the instruction of row `o` at `s`. -/
def OutOfBoundsOperands (s : State) (o : Op) : Prop :=
  (UsesA s o ∧ s.pc.toNat + 1 > 255) ∨
  (UsesB o ∧ s.pc.toNat + 2 > 255) ∨
  (UsesA s o ∧ ∃ a, s.byteAt (s.pc.toNat + 1) = some a ∧ a.toNat > 7) ∨
  ((o = .add ∨ o = .mul ∨ o = .cmp) ∧ ∃ b, s.byteAt (s.pc.toNat + 2) = some b ∧ b.toNat > 7) ∨
  ((o = .push ∨ o = .call) ∧ s.sp.toNat = 0) ∨
  (o = .ret ∧ s.sp.toNat = 255) ∨
  (o = .pop ∧ ∃ a, s.byteAt (s.pc.toNat + 1) = some a ∧
    (if a.toNat = 7 then s.readByte s.sp else s.sp).toNat = 255) ∨
  (o = .call ∧ s.pc.toNat + 2 > 255)

/-- The opcode byte at the pc names row `o`. -/
def OpcodeIs (s : State) (o : Op) : Prop := s.byteAt s.pc.toNat = some (opc o)

/-- The next cycle at `t` takes `byte` for its opcode: it executes an instruction of the row with that byte, or raises
UnsupportedOpcode with it where no row has it. -/
def RunsByteNext (t : State) (byte : Byte) : Prop :=
  (∀ o, opc o = byte → ∃ i : Instr, i.op = o ∧ step t = exec i t) ∧
  ((∀ o, opc o ≠ byte) → ∃ u, step t = .next u ∧ FaultTaken (.unsupportedOpcode t.pc byte) t u)

/-- Two states differ at most in FL. -/
def AgreeButFlags (s t : State) : Prop :=
  t.mem = s.mem ∧ t.regs = s.regs ∧ t.pc = s.pc ∧ t.run = s.run ∧ t.err = s.err ∧ t.out = s.out

/-- The byte last written to address `a` in a list of stores, oldest first; 0 if none. -/
def lastWritten (stores : List (Byte × Byte)) (a : Byte) : Byte :=
  stores.foldl (fun seen w => if w.1 = a then w.2 else seen) 0

/-- PUSH, POP or CALL with an operand other than 7, or RET: the instructions of 43_stack.md R164's last sentence. -/
def StackOp : Instr → Prop
  | .push a => a.toNat ≠ 7
  | .pop a => a.toNat ≠ 7
  | .call a => a.toNat ≠ 7
  | .ret => True
  | .nop => False
  | .ldi _ _ => False
  | .prn _ => False
  | .hlt => False
  | .add _ _ => False
  | .mul _ _ => False
  | .cmp _ _ => False
  | .jmp _ => False
  | .jeq _ => False
  | .jne _ => False

/-- The instructions one after the other, each at the state the one before leaves. -/
def execAll : List Instr → State → StepOutcome
  | [], s => .next s
  | i :: rest, s =>
    match exec i s with
    | .next t => execAll rest t
    | .fault r => .fault r
    | .refused r => .refused r

end Sys2Proof.Claims

open Sys2Proof.Claims

/-! ### Reset, invariant, host boundary -/

/-- R41, R220: the reset values, FL being whatever value reset draws (D4, log entry 2); the model's own reset draws
the opaque `Config.flReset`. -/
def Obligations.ResetValues : Prop :=
  (∀ fl : Byte, ∀ s : State, s = State.resetWith fl →
    (∀ a : Byte, s.readByte a = 0) ∧ (∀ i : RegIndex, i ≠ 7 → s.reg i = 0) ∧ (s.sp.toNat = 244) ∧
    s.pc.toNat = 0 ∧ s.fl = fl ∧ s.run = .running ∧ s.err = .none ∧ s.out = []) ∧
  State.reset = State.resetWith Config.flReset

/-- R43 at reset: the invariant holds of every reset state, whatever FL holds. -/
def Obligations.ResetMeetsInvariant : Prop :=
  (∀ fl : Byte, (State.resetWith fl).Inv fl) ∧ State.reset.Inv Config.flReset

/-- R43 (a) to (d), with the canonical form of memory: every cycle keeps the invariant, from every state that meets
it. The bound 257 rests on D2 and D6, the shape of ERR on D10. -/
def Obligations.StepKeepsInvariant : Prop :=
  ∀ (fl0 : Byte) (s t : State), s.Inv fl0 → step s = .next t → t.Inv fl0

/-- R227: a program of at most 256 bytes loaded after reset stands at addresses 0, 1, 2, ..., every other cell keeps
0, SP is 0xF4 and nothing else differs from reset; a longer one is refused (D15). -/
def Obligations.LoadPlacesProgram : Prop :=
  ∀ (program : List Byte) (fl : Byte),
    (program.length ≤ 256 → ∃ t, load program (State.resetWith fl) = .next t ∧
      (∀ (a : Byte) (h : a.toNat < program.length), t.readByte a = program[a.toNat]) ∧
      (∀ a : Byte, program.length ≤ a.toNat → t.readByte a = 0) ∧
      (∀ i : RegIndex, i ≠ 7 → t.reg i = 0) ∧ t.sp.toNat = 244 ∧ t.pc.toNat = 0 ∧ t.fl = fl ∧
      t.run = .running ∧ t.err = .none ∧ t.out = [] ∧ t.Inv fl) ∧
    (256 < program.length → load program (State.resetWith fl) = .refused .programTooLong)

/-- R230: the debug read reports pc and the bytes at pc, pc + 1, pc + 2, a byte above 255 as absent (D17). -/
def Obligations.DebugReadReportsNextFetch : Prop :=
  ∀ (s : State) (a0 a1 a2 : Byte),
    (s.debugRead).pc = s.pc ∧
    (a0.toNat = s.pc.toNat → (s.debugRead).byte0 = some (s.readByte a0)) ∧
    (a1.toNat = s.pc.toNat + 1 → (s.debugRead).byte1 = some (s.readByte a1)) ∧
    (a2.toNat = s.pc.toNat + 2 → (s.debugRead).byte2 = some (s.readByte a2)) ∧
    (255 < s.pc.toNat → (s.debugRead).byte0 = none) ∧
    (255 < s.pc.toNat + 1 → (s.debugRead).byte1 = none) ∧
    (255 < s.pc.toNat + 2 → (s.debugRead).byte2 = none)

/-- R200, R194: the exit contract. The numbers 1 and 2 are D10's suggestion. -/
def Obligations.ExitStatusContract : Prop :=
  ∀ s : State,
    (s.status.exitStatus = some 0 ↔ s.EndedByHlt) ∧
    (s.status.exitStatus = some 1 ↔ s.run = .halted ∧ ∃ p byte, s.err = .unsupportedOpcode p byte) ∧
    (s.status.exitStatus = some 2 ↔ s.run = .halted ∧ ∃ p, s.err = .outOfBounds p) ∧
    (s.status.exitStatus = none ↔ s.run = .running)

/-- R231: the host reads RUN, ERR and pc; once Halted they are final, through any number of cycles; after a fault
pc is the pc at the start of the faulting cycle, the address of the faulting instruction. -/
def Obligations.StatusIsFinalOnceHalted : Prop :=
  (∀ s : State, (s.status).run = s.run ∧ (s.status).err = s.err ∧ (s.status).pc = s.pc) ∧
  (∀ (k : Nat) (s t : State), s.run = .halted → runFrom k s = .next t → t.status = s.status) ∧
  (∀ s t : State, s.err = .none → step s = .next t → t.err ≠ .none → (t.status).pc = s.pc)

/-- R226, R228, R221, what the host may do and what it may not (D14, log entry 17). May: in every phase a reset answers
the state after reset; after reset a load of at most 256 bytes is taken; after the load the start; after the start
every cycle. May not: a move that answers next was made in its phase, and the core has changed by that move
alone, so that once started the host's only move is reset. That a cycle is answered also by a Halted core, where R120
and R228 say that no further cycle happens, and answered with the same state, is the model's choice (DESIGN CHOICE, log
entry 4). -/
def Obligations.HostMovesOnlyInTheirPhase : Prop :=
  (∀ (x : Session) (fl : Byte), x.move (.reset fl) = .next ⟨.afterReset, State.resetWith fl⟩) ∧
  (∀ (x : Session) (program : List Byte), x.phase = .afterReset → program.length ≤ 256 →
    ∃ t, load program x.core = .next t ∧ x.move (.load program) = .next ⟨.loaded, t⟩) ∧
  (∀ x : Session, x.phase = .loaded → x.move .start = .next ⟨.started, x.core⟩) ∧
  (∀ x : Session, x.phase = .started →
    ∃ t, step x.core = .next t ∧ x.move .cycle = .next ⟨.started, t⟩) ∧
  (∀ (x y : Session) (m : Move), x.move m = .next y →
    match m with
    | .reset fl => y.phase = .afterReset ∧ y.core = State.resetWith fl
    | .load program => x.phase = .afterReset ∧ y.phase = .loaded ∧ load program x.core = .next y.core
    | .start => x.phase = .loaded ∧ y.phase = .started ∧ y.core = x.core
    | .cycle => x.phase = .started ∧ y.phase = .started ∧ step x.core = .next y.core)

/-! ### Encoding -/

/-- R80, R84, U12: under every opcode map the source admits (fourteen distinct bytes, NOP 0), and so under the
map of R84 (D5), decoding the bytes of an instruction gives it back, every operand at every value, and leaves
what follows. -/
def Obligations.DecodeOfEncode : Prop :=
  (∀ (m : OpcodeMap) (i : Instr) (rest : List Byte), m.Valid →
    decodeWith m (encodeWith m i ++ rest) = .ok (i, rest)) ∧
  (∀ (i : Instr) (rest : List Byte), decode (encode i ++ rest) = .ok (i, rest))

/-- The other direction: what the decoder reads is the encoding of what it answers, followed by the bytes it
leaves; so each byte sequence has one meaning. -/
def Obligations.EncodeOfDecode : Prop :=
  ∀ (m : OpcodeMap) (bytes rest : List Byte) (i : Instr), m.Valid →
    decodeWith m bytes = .ok (i, rest) → encodeWith m i ++ rest = bytes

/-- R87: the legal opcode bytes under R84's map (D5, log entry 1), and that every other byte is rejected by name
before any operand byte is looked at. -/
def Obligations.LegalOpcodeBytes : Prop :=
  ∀ (byte : Byte) (operands : List Byte),
    decode (byte :: operands) = .error (.unsupportedOpcode byte) ↔
      byte.toNat ∉ [0x00, 0x01, 0x11, 0x45, 0x46, 0x47, 0x50, 0x54, 0x55, 0x56, 0x82, 0xA0, 0xA2, 0xA7]

/-- R92 and the encoding lines of R116, R117, R130, R131, R141 to R143, R161, R162, R171 to R175: a word of every
row, written out from the table (the bytes are D5's, log entry 1). -/
def Obligations.DecodeTableExamples : Prop :=
  decode [0x00] = .ok (.nop, []) ∧
  decode [0x82, 0x00, 0x08] = .ok (.ldi 0 8, []) ∧
  decode [0x82, 0x01, 0x09] = .ok (.ldi 1 9, []) ∧
  decode [0x47, 0x00] = .ok (.prn 0, []) ∧
  decode [0x01] = .ok (.hlt, []) ∧
  decode [0xA0, 0x00, 0x01] = .ok (.add 0 1, []) ∧
  decode [0xA2, 0x03, 0x04] = .ok (.mul 3 4, []) ∧
  decode [0xA7, 0x00, 0x02] = .ok (.cmp 0 2, []) ∧
  decode [0x45, 0x06] = .ok (.push 6, []) ∧
  decode [0x46, 0x01] = .ok (.pop 1, []) ∧
  decode [0x50, 0x01] = .ok (.call 1, []) ∧
  decode [0x11] = .ok (.ret, []) ∧
  decode [0x54, 0x03] = .ok (.jmp 3, []) ∧
  decode [0x55, 0x02] = .ok (.jeq 2, []) ∧
  decode [0x56, 0x07] = .ok (.jne 7, [])

/-- R113: decode looks up the opcode byte and nothing else: the row is the one whose byte stands at pc, and any two
states with the same opcode byte at their pc decode to the same row, or are both unsupported. -/
def Obligations.DecodeReadsOnlyTheOpcode : Prop :=
  ∀ (s t : State) (byte : Byte), s.pc.toNat ≤ 255 → t.pc.toNat ≤ 255 →
    s.byteAt s.pc.toNat = some byte → t.byteAt t.pc.toNat = some byte →
    (∃ (o : Op) (i j : Instr), opc o = byte ∧ i.op = o ∧ j.op = o ∧
      s.fetchDecode = .ok i ∧ t.fetchDecode = .ok j) ∨
    ((∀ o : Op, opc o ≠ byte) ∧ s.fetchDecode = .error (.unsupportedOpcode s.pc byte) ∧
      t.fetchDecode = .error (.unsupportedOpcode t.pc byte))

/-! ### The cycle -/

/-- R110: when the bytes that stand at the pc decode to an instruction, a Running core's cycle is its execution:
the step adds nothing around it. -/
def Obligations.StepRunsDecodedInstruction : Prop :=
  ∀ (s : State) (i : Instr) (rest : List Byte), s.run = .running → s.pc.toNat ≤ 255 →
    decode ([s.pc.toNat, s.pc.toNat + 1, s.pc.toNat + 2].filterMap s.byteAt) = .ok (i, rest) →
    step s = exec i s

/-- R67, R68 (D6, log entry 6): whatever stood in for the eager bytes beyond address 255 would make no difference
to the cycle. -/
def Obligations.EagerBytesBeyondMemoryIgnored : Prop :=
  ∀ (s : State) (filler : Byte) (i : Instr) (rest : List Byte), s.run = .running → s.pc.toNat ≤ 255 →
    decode (s.fetchBytes filler) = .ok (i, rest) → step s = exec i s

/-- R111: a cycle that begins with pc > 255 raises OutOfBounds(pc), whatever memory holds; an instruction whose last
byte is at 255 completes with pc = 256 (a JEQ or JNE at 254 that does not branch too; one at 255 with pc = 257), and
the cycle after it faults with pc unchanged. -/
def Obligations.PcCheckFaults : Prop :=
  (∀ s : State, s.run = .running → s.pc.toNat > 255 →
    ∃ t, step s = .next t ∧ FaultTaken (.outOfBounds s.pc) s t) ∧
  (∀ (s t : State) (o : Op), s.run = .running → s.err = .none → s.pc.toNat ≤ 255 → OpcodeIs s o →
    (s.pc.toNat + o.length = 256 ∧ o ≠ .hlt ∧ o ≠ .call ∧ o ≠ .ret ∧ o ≠ .jmp ∧ o ≠ .jeq ∧ o ≠ .jne ∨
      s.pc.toNat ≥ 254 ∧ (o = .jeq ∧ Flags.equalSet s.fl = false ∨ o = .jne ∧ Flags.equalSet s.fl = true)) →
    step s = .next t → t.err = .none →
    t.run = .running ∧ t.pc.toNat = s.pc.toNat + o.length ∧
      ∃ u, step t = .next u ∧ FaultTaken (.outOfBounds t.pc) t u)

/-- R118, R191: a nonzero opcode byte of no row raises UnsupportedOpcode with its pc and its value, also at
addresses 254 and 255, and changes nothing but RUN and ERR. -/
def Obligations.UnsupportedOpcodeHalts : Prop :=
  ∀ (s : State) (byte : Byte), s.run = .running → s.byteAt s.pc.toNat = some byte →
    (∀ o : Op, opc o ≠ byte) →
    byte ≠ 0 ∧ ∃ t, step s = .next t ∧ FaultTaken (.unsupportedOpcode s.pc byte) s t

/-- R120, R43 (f) (D18, log entry 4): a Halted core changes no more, through any number of cycles, and no move of the
host but reset makes it Running. -/
def Obligations.HaltedIsTerminal : Prop :=
  (∀ (k : Nat) (s : State), s.run = .halted → runFrom k s = .next s) ∧
  (∀ (x y : Session) (m : Move), x.core.run = .halted → x.move m = .next y →
    (∀ fl, m ≠ .reset fl) → y.core.run = .halted)

/-- R232, R120: a run has one result, that of its first Halted state: once some number of cycles ends Halted, every
greater number leaves that very state, so the result (ERR, pc, OUT, registers, memory) stays; a Running state has
none. That a cycle answers at all at a Halted state, where R120 says there is no further cycle, and answers that same
state, is the model's choice (DESIGN CHOICE, log entry 4). -/
def Obligations.RunHasOneResult : Prop :=
  (∀ (k l : Nat) (s t : State), runFrom k s = .next t → t.run = .halted → k ≤ l → runFrom l s = .next t) ∧
  (∀ (k l : Nat) (s t u : State) (r r' : RunResult), runFrom k s = .next t → runFrom l s = .next u →
    t.result = some r → u.result = some r' → r = r') ∧
  (∀ s : State, (s.result = none ↔ s.run = .running) ∧
    (s.run = .halted → s.result = some ⟨s.err, s.pc, s.out, s.regs, s.mem⟩))

/-- R122: every cycle of a Running core has exactly one outcome: Running on, Halted by HLT with nothing else
changed, or Halted with a fault recorded. -/
def Obligations.StepIsTotal : Prop :=
  ∀ s : State, s.run = .running → s.err = .none →
    ∃ t, step s = .next t ∧
      ((t.run = .running ∧ t.err = .none) ∨
       (OpcodeIs s .hlt ∧ t.run = .halted ∧ t.err = .none ∧ t.regs = s.regs ∧ t.mem = s.mem ∧ t.fl = s.fl ∧
         t.pc = s.pc ∧ t.out = s.out) ∨
       FaultTaken (.outOfBounds s.pc) s t ∨
       ∃ byte, FaultTaken (.unsupportedOpcode s.pc byte) s t)

/-- R115 (D7, log entry 9): a cycle that records a fault changes only RUN and ERR. -/
def Obligations.FaultsArePrecise : Prop :=
  (∀ (i : Instr) (s t : State), s.err = .none → exec i s = .next t → t.err ≠ .none →
    FaultTaken (.outOfBounds s.pc) s t) ∧
  (∀ s t : State, s.err = .none → step s = .next t → t.err ≠ .none → FaultTaken t.err s t)

/-- R192, R196, R191: OutOfBounds is recorded exactly under the seven conditions of R192's table, and
UnsupportedOpcode exactly when the pc is in range and its byte names no row. The table rests on D6 (unused
operand bytes), D8 (stack pointer), D9 (return address), D13 (order) and D20 (branch not taken). -/
def Obligations.FaultsExactlyAsListed : Prop :=
  ∀ s t : State, s.run = .running → s.err = .none → step s = .next t →
    (t.err = .outOfBounds s.pc ↔
      s.pc.toNat > 255 ∨ ∃ o, OpcodeIs s o ∧ OutOfBoundsOperands s o) ∧
    (∀ byte, t.err = .unsupportedOpcode s.pc byte ↔
      s.byteAt s.pc.toNat = some byte ∧ ∀ o : Op, opc o ≠ byte)

/-! ### Frames and whole-machine rules -/

/-- R31: no instruction but CMP changes FL, and no cycle whose opcode byte is not CMP's does; NOP changes no register
and no flag and advances the pc by 1. -/
def Obligations.OnlyCmpWritesFlags : Prop :=
  (∀ (i : Instr) (s t : State), (∀ a b, i ≠ .cmp a b) → exec i s = .next t → t.fl = s.fl) ∧
  (∀ s t : State, ¬ OpcodeIs s .cmp → step s = .next t → t.fl = s.fl) ∧
  (∀ s t : State, s.pc.toNat ≤ 255 → exec .nop s = .next t →
    (∀ i : RegIndex, t.reg i = s.reg i) ∧ t.fl = s.fl ∧ t.pc.toNat = s.pc.toNat + 1)

/-- Frame (R21, R50): NOP, LDI, PRN, HLT, ADD, MUL, CMP, POP, RET, JMP, JEQ and JNE store nothing: every byte of
memory reads as before. -/
def Obligations.StoreFreeFormsKeepMemory : Prop :=
  ∀ (i : Instr) (s t : State), ¬ Stores i → exec i s = .next t → MemKept s t

/-- Frame (R52, R160, R161, R171): PUSH and CALL store one byte, at SP as `State.decSp` leaves it; every other byte
reads as before. Where there is no such SP (D8) every byte reads as before. -/
def Obligations.PushCallStoreOneByte : Prop :=
  ∀ (i : Instr) (s t : State), Stores i → exec i s = .next t →
    (∀ u, s.decSp = some u → MemKeptBut u.sp s t) ∧ (s.decSp = none → MemKept s t)

/-- Frame: every register keeps its value but the destination of LDI, ADD, MUL and POP, and SP where PUSH, POP, CALL
and RET move it. -/
def Obligations.RegistersKeptButDestination : Prop :=
  ∀ (i : Instr) (s t : State) (j : RegIndex), ¬ WritesReg j i → exec i s = .next t → t.reg j = s.reg j

/-- Frame of OUT (R36, R132, R43 (e)): only PRN appends to OUT, one byte, the register its operand names; every
cycle leaves OUT as it was or one byte longer. -/
def Obligations.OutputOnlyGrowsByPrn : Prop :=
  (∀ (i : Instr) (s t : State), (∀ a, i ≠ .prn a) → exec i s = .next t → t.out = s.out) ∧
  (∀ (a : Byte) (s t : State), exec (.prn a) s = .next t →
    t.out = s.out ∨ ∃ r : RegIndex, a.toNat = r ∧ t.out = s.out ++ [s.reg r]) ∧
  (∀ s t : State, step s = .next t →
    t.out = s.out ∨ (OpcodeIs s .prn ∧ ∃ r : RegIndex, t.out = s.out ++ [s.reg r]))

/-- Frame of RUN and ERR (R34, R35): an instruction other than HLT either takes OutOfBounds or leaves RUN and ERR as
they were. -/
def Obligations.OnlyHltOrFaultHalts : Prop :=
  ∀ (i : Instr) (s t : State), i ≠ .hlt → exec i s = .next t →
    FaultTaken (.outOfBounds s.pc) s t ∨ (t.run = s.run ∧ t.err = s.err)

/-- R21, R50, R62: only POP and RET read memory as data: every other instruction does to the registers, pc, flags,
output and run state what it would do over any other memory; and the byte that a PUSH or CALL which completes stores,
at SP as `State.decSp` leaves it, is the same over any two canonical memories. -/
def Obligations.OnlyPopRetReadData : Prop :=
  (∀ (i : Instr) (s t u : State) (m : List Host.Cell), ¬ ReadsData i → exec i s = .next t →
    exec i { s with mem := m } = .next u →
    u.regs = t.regs ∧ u.pc = t.pc ∧ u.fl = t.fl ∧ u.run = t.run ∧ u.err = t.err ∧ u.out = t.out) ∧
  (∀ (i : Instr) (s t u v : State) (m : List Host.Cell), Stores i → Memory.wf s.mem = true →
    Memory.wf m = true → s.decSp = some v → exec i s = .next t → exec i { s with mem := m } = .next u →
    t.err = .none → u.readByte v.sp = t.readByte v.sp)

/-- R28 with R171, R174 and R175: how the pc changes, per instruction; a faulting instruction leaves it unchanged. That
CALL R7 goes to the decremented SP is decision D19 (R171, log entry 14); which of JEQ and JNE branches is R174's and
R175's. -/
def Obligations.PcUpdatePerInstruction : Prop :=
  ∀ (i : Instr) (s t : State), s.pc.toNat ≤ 255 → s.err = .none → exec i s = .next t →
    (t.err = .none → PcRule s t i) ∧ (t.err ≠ .none → t.pc = s.pc)

/-! ### Instructions: each completes with its effect and nothing else, and faults where its rule says -/

/-- R116: NOP, the opcode byte 0, at any address 0 to 255; at 255 the next cycle raises OutOfBounds. -/
def Obligations.NopAdvancesByOne : Prop :=
  (∀ s : State, s.pc.toNat ≤ 255 → ∃ t, exec .nop s = .next t ∧ RegsKept [] s t ∧ MemKept s t ∧
    ControlKept s t ∧ t.pc.toNat = s.pc.toNat + 1) ∧
  (∀ s : State, s.run = .running → s.byteAt s.pc.toNat = some 0 →
    ∃ t, step s = .next t ∧ RegsKept [] s t ∧ MemKept s t ∧ ControlKept s t ∧ t.pc.toNat = s.pc.toNat + 1 ∧
      (s.pc.toNat = 255 → ∃ u, step t = .next u ∧ FaultTaken (.outOfBounds t.pc) t u))

/-- R117 (less its opcode byte, D5): HLT halts, at any pc, and changes nothing else; no further cycle changes
anything. -/
def Obligations.HltHaltsInPlace : Prop :=
  ∀ s : State, ∃ t, exec .hlt s = .next t ∧ t.run = .halted ∧ t.err = s.err ∧ t.pc = s.pc ∧ t.fl = s.fl ∧
    t.out = s.out ∧ RegsKept [] s t ∧ MemKept s t ∧ step t = .next t

/-- R130 (less its opcode byte, D5; the fault clause rests on D6 and D7): LDI. -/
def Obligations.LdiWritesImmediate : Prop :=
  ∀ (a b : Byte) (s : State),
    (∀ d : RegIndex, s.pc.toNat ≤ 253 → a.toNat = d →
      ∃ t, exec (.ldi a b) s = .next t ∧ t.reg d = b ∧ RegsKept [d] s t ∧ MemKept s t ∧ ControlKept s t ∧
        t.pc.toNat = s.pc.toNat + 3) ∧
    (s.pc.toNat ≥ 254 ∨ a.toNat > 7 → RaisesOutOfBounds (.ldi a b) s)

/-- R131, R132 (less the opcode byte, D5; raw byte D11; the fault clause rests on D6 and D7): PRN. -/
def Obligations.PrnEmitsRegister : Prop :=
  ∀ (a : Byte) (s : State),
    (∀ r : RegIndex, s.pc.toNat ≤ 254 → a.toNat = r →
      ∃ t, exec (.prn a) s = .next t ∧ t.out = s.out ++ [s.reg r] ∧ RegsKept [] s t ∧ MemKept s t ∧
        t.run = s.run ∧ t.err = s.err ∧ t.fl = s.fl ∧ t.pc.toNat = s.pc.toNat + 2) ∧
    (s.pc.toNat ≥ 255 ∨ a.toNat > 7 → RaisesOutOfBounds (.prn a) s)

/-- R141, R144, R146 (less the opcode byte, D5; width D1; the fault clause rests on D6 and D7): ADD. -/
def Obligations.AddWrapsModulo256 : Prop :=
  ∀ (a b : Byte) (s : State),
    (∀ d r : RegIndex, s.pc.toNat ≤ 253 → a.toNat = d → b.toNat = r →
      ∃ t, exec (.add a b) s = .next t ∧ (t.reg d).toNat = ((s.reg d).toNat + (s.reg r).toNat) % 256 ∧
        RegsKept [d] s t ∧ MemKept s t ∧ ControlKept s t ∧ t.pc.toNat = s.pc.toNat + 3) ∧
    (s.pc.toNat ≥ 254 ∨ a.toNat > 7 ∨ b.toNat > 7 → RaisesOutOfBounds (.add a b) s)

/-- R142, R144, R146 (less the opcode byte, D5; width D1; the fault clause rests on D6 and D7): MUL. -/
def Obligations.MulWrapsModulo256 : Prop :=
  ∀ (a b : Byte) (s : State),
    (∀ d r : RegIndex, s.pc.toNat ≤ 253 → a.toNat = d → b.toNat = r →
      ∃ t, exec (.mul a b) s = .next t ∧ (t.reg d).toNat = ((s.reg d).toNat * (s.reg r).toNat) % 256 ∧
        RegsKept [d] s t ∧ MemKept s t ∧ ControlKept s t ∧ t.pc.toNat = s.pc.toNat + 3) ∧
    (s.pc.toNat ≥ 254 ∨ a.toNat > 7 ∨ b.toNat > 7 → RaisesOutOfBounds (.mul a b) s)

/-- R143, R30 (less the opcode byte, D5; bit positions D3, log entry 3; the fault clause rests on D6 and D7): CMP sets
exactly one of E (0x01), G (0x02), L (0x04), unsigned, and every other bit of FL to 0. -/
def Obligations.CmpSetsExactlyOneFlag : Prop :=
  ∀ (a b : Byte) (s : State),
    (∀ d r : RegIndex, s.pc.toNat ≤ 253 → a.toNat = d → b.toNat = r →
      ∃ t, exec (.cmp a b) s = .next t ∧
        ((s.reg d).toNat = (s.reg r).toNat → t.fl.toNat = 1) ∧
        ((s.reg d).toNat > (s.reg r).toNat → t.fl.toNat = 2) ∧
        ((s.reg d).toNat < (s.reg r).toNat → t.fl.toNat = 4) ∧
        RegsKept [] s t ∧ MemKept s t ∧ t.run = s.run ∧ t.err = s.err ∧ t.out = s.out ∧
        t.pc.toNat = s.pc.toNat + 3) ∧
    (s.pc.toNat ≥ 254 ∨ a.toNat > 7 ∨ b.toNat > 7 → RaisesOutOfBounds (.cmp a b) s)

/-- R161, R163 (less the opcode byte, D5): PUSH stores the register at the decremented SP; PUSH R7 stores the
decremented SP itself (D19); SP = 0 faults (D8), the fault clause rests on D6 and D7 too. -/
def Obligations.PushStoresBelowSp : Prop :=
  ∀ (a : Byte) (s : State),
    (∀ r : RegIndex, Memory.wf s.mem = true → s.pc.toNat ≤ 254 → a.toNat = r → s.sp.toNat ≠ 0 →
      ∃ t, exec (.push a) s = .next t ∧ t.sp.toNat = s.sp.toNat - 1 ∧
        t.readByte t.sp = (if r = 7 then t.sp else s.reg r) ∧
        RegsKept [7] s t ∧ MemKeptBut t.sp s t ∧ ControlKept s t ∧ t.pc.toNat = s.pc.toNat + 2) ∧
    (s.pc.toNat ≥ 255 ∨ a.toNat > 7 ∨ s.sp.toNat = 0 → RaisesOutOfBounds (.push a) s)

/-- R162, R163 (less the opcode byte, D5): POP reads the byte at SP into the register, then increments SP; POP R7
leaves the popped byte plus 1 in SP (D19); an increment from 255 faults (D8), the fault clause rests on D6 and
D7 too. -/
def Obligations.PopReadsAtSp : Prop :=
  ∀ (a : Byte) (s : State),
    (∀ d : RegIndex, s.pc.toNat ≤ 254 → a.toNat = d → d ≠ 7 → s.sp.toNat ≠ 255 →
      ∃ t, exec (.pop a) s = .next t ∧ t.reg d = s.readByte s.sp ∧ t.sp.toNat = s.sp.toNat + 1 ∧
        RegsKept [d, 7] s t ∧ MemKept s t ∧ ControlKept s t ∧ t.pc.toNat = s.pc.toNat + 2) ∧
    (s.pc.toNat ≤ 254 → a.toNat = 7 → (s.readByte s.sp).toNat ≠ 255 →
      ∃ t, exec (.pop a) s = .next t ∧ t.sp.toNat = (s.readByte s.sp).toNat + 1 ∧
        RegsKept [7] s t ∧ MemKept s t ∧ ControlKept s t ∧ t.pc.toNat = s.pc.toNat + 2) ∧
    (s.pc.toNat ≥ 255 ∨ a.toNat > 7 ∨ (a.toNat < 7 ∧ s.sp.toNat = 255) ∨
        (a.toNat = 7 ∧ (s.readByte s.sp).toNat = 255) →
      RaisesOutOfBounds (.pop a) s)

/-- R171, R163 (less the opcode byte, D5): CALL stores pc + 2 at the decremented SP and jumps to the register; CALL R7
jumps to the decremented SP (D19); SP = 0 faults (D8), as does a return address above 255 (D9); the fault
clause rests on D6 and D7 too. -/
def Obligations.CallStacksReturnAddress : Prop :=
  ∀ (a : Byte) (s : State),
    (∀ r : RegIndex, Memory.wf s.mem = true → s.pc.toNat ≤ 253 → a.toNat = r → s.sp.toNat ≠ 0 →
      ∃ t, exec (.call a) s = .next t ∧ t.sp.toNat = s.sp.toNat - 1 ∧
        (t.readByte t.sp).toNat = s.pc.toNat + 2 ∧
        t.pc.toNat = (if r = 7 then t.sp else s.reg r).toNat ∧
        RegsKept [7] s t ∧ MemKeptBut t.sp s t ∧ ControlKept s t) ∧
    (s.pc.toNat ≥ 254 ∨ a.toNat > 7 ∨ s.sp.toNat = 0 → RaisesOutOfBounds (.call a) s)

/-- R172, R163 (less the opcode byte, D5): RET pops into pc, at any address, and never changes the stack byte; SP = 255
faults (D8, D7). -/
def Obligations.RetPopsIntoPc : Prop :=
  ∀ s : State,
    (s.sp.toNat ≠ 255 →
      ∃ t, exec .ret s = .next t ∧ t.pc.toNat = (s.readByte s.sp).toNat ∧ t.sp.toNat = s.sp.toNat + 1 ∧
        RegsKept [7] s t ∧ MemKept s t ∧ ControlKept s t) ∧
    (s.sp.toNat = 255 → RaisesOutOfBounds .ret s)

/-- R173 (less the opcode byte, D5; the fault clause rests on D6 and D7): JMP. -/
def Obligations.JmpGoesToRegister : Prop :=
  ∀ (a : Byte) (s : State),
    (∀ r : RegIndex, s.pc.toNat ≤ 254 → a.toNat = r →
      ∃ t, exec (.jmp a) s = .next t ∧ t.pc.toNat = (s.reg r).toNat ∧ RegsKept [] s t ∧ MemKept s t ∧
        ControlKept s t) ∧
    (s.pc.toNat ≥ 255 ∨ a.toNat > 7 → RaisesOutOfBounds (.jmp a) s)

/-- R174 (less the opcode byte, D5): JEQ branches when bit E is set; when it is clear it advances by 2 for every
operand byte and every pc up to 255, without a fault (D20); the fault clause rests on D6 and D7. -/
def Obligations.JeqBranchesOnEqual : Prop :=
  ∀ (a : Byte) (s : State),
    (∀ r : RegIndex, Flags.equalSet s.fl = true → s.pc.toNat ≤ 254 → a.toNat = r →
      ∃ t, exec (.jeq a) s = .next t ∧ t.pc.toNat = (s.reg r).toNat ∧ RegsKept [] s t ∧ MemKept s t ∧
        ControlKept s t) ∧
    (Flags.equalSet s.fl = true → s.pc.toNat ≥ 255 ∨ a.toNat > 7 → RaisesOutOfBounds (.jeq a) s) ∧
    (Flags.equalSet s.fl = false → s.pc.toNat ≤ 255 →
      ∃ t, exec (.jeq a) s = .next t ∧ t.pc.toNat = s.pc.toNat + 2 ∧ RegsKept [] s t ∧ MemKept s t ∧
        ControlKept s t)

/-- R175 (less the opcode byte, D5): JNE branches when bit E is clear, whatever the other bits of FL hold; when it is
set it advances by 2 without a fault (D20); the fault clause rests on D6 and D7. -/
def Obligations.JneBranchesOnNotEqual : Prop :=
  ∀ (a : Byte) (s : State),
    (∀ r : RegIndex, Flags.equalSet s.fl = false → s.pc.toNat ≤ 254 → a.toNat = r →
      ∃ t, exec (.jne a) s = .next t ∧ t.pc.toNat = (s.reg r).toNat ∧ RegsKept [] s t ∧ MemKept s t ∧
        ControlKept s t) ∧
    (Flags.equalSet s.fl = false → s.pc.toNat ≥ 255 ∨ a.toNat > 7 → RaisesOutOfBounds (.jne a) s) ∧
    (Flags.equalSet s.fl = true → s.pc.toNat ≤ 255 →
      ∃ t, exec (.jne a) s = .next t ∧ t.pc.toNat = s.pc.toNat + 2 ∧ RegsKept [] s t ∧ MemKept s t ∧
        ControlKept s t)

/-! ### Laws over several instructions -/

/-- R82, R26, R174, R175: the whole operand byte is the register index: 0 to 7 select x[0] to x[7]; with a byte above 7
the encoding is still the same instruction (decode answers it), and each instruction that accesses the register
raises OutOfBounds; a JEQ or JNE raises it exactly when it branches. That a branch not taken accesses no register and
so raises nothing is decision D20 (log entry 15). -/
def Obligations.RegisterOperandNotMasked : Prop :=
  (∀ (i : RegIndex) (a : Byte), a.toNat = i → regIndex a = some i) ∧
  (∀ (a b : Byte) (s : State), a.toNat > 7 →
    (∀ o : Op, decode [opc o, a, b] = .ok (o.instr a b, [a, b].drop (o.length - 1))) ∧
    RaisesAll [.ldi a b, .prn a, .add a b, .add b a, .mul a b, .mul b a, .cmp a b, .cmp b a, .push a, .pop a,
      .call a, .jmp a] s ∧
    (RaisesOutOfBounds (.jeq a) s ↔ Flags.equalSet s.fl = true) ∧
    (RaisesOutOfBounds (.jne a) s ↔ Flags.equalSet s.fl = false))

/-- R140: the ALU operations are pure functions of two register values: there are functions `add`, `mul` and `cmp`
that give what ADD and MUL write to x[a] and CMP to FL; an ALU instruction touches no memory, no OUT and no other
register (ADD, MUL: not FL; CMP: no register), and pc advances by 3; these three alone have format F2R. -/
def Obligations.AluIsPure : Prop :=
  (∀ o : Op, o.format = .f2r ↔ o = .add ∨ o = .mul ∨ o = .cmp) ∧
  ∃ add mul cmp : Byte → Byte → Byte,
    ∀ (a b : Byte) (d r : RegIndex) (s : State), s.pc.toNat ≤ 253 → a.toNat = d → b.toNat = r →
      (∃ t, exec (.add a b) s = .next t ∧ t.reg d = add (s.reg d) (s.reg r) ∧ RegsKept [d] s t ∧
        t.mem = s.mem ∧ ControlKept s t ∧ t.pc.toNat = s.pc.toNat + 3) ∧
      (∃ t, exec (.mul a b) s = .next t ∧ t.reg d = mul (s.reg d) (s.reg r) ∧ RegsKept [d] s t ∧
        t.mem = s.mem ∧ ControlKept s t ∧ t.pc.toNat = s.pc.toNat + 3) ∧
      (∃ t, exec (.cmp a b) s = .next t ∧ t.fl = cmp (s.reg d) (s.reg r) ∧ t.regs = s.regs ∧
        t.mem = s.mem ∧ t.run = s.run ∧ t.err = s.err ∧ t.out = s.out ∧ t.pc.toNat = s.pc.toNat + 3)

/-- R145: ADD and MUL give the same bits for the unsigned and the two's-complement reading; CMP compares unsigned. -/
def Obligations.SignednessShowsOnlyInCmp : Prop :=
  ∀ (a b : Byte) (d r : RegIndex) (s : State), s.pc.toNat ≤ 253 → a.toNat = d → b.toNat = r →
    (∃ t, exec (.add a b) s = .next t ∧
      t.reg d = BitVec.ofNat 8 ((s.reg d).toNat + (s.reg r).toNat) ∧
      t.reg d = BitVec.ofInt 8 ((s.reg d).toInt + (s.reg r).toInt)) ∧
    (∃ t, exec (.mul a b) s = .next t ∧
      t.reg d = BitVec.ofNat 8 ((s.reg d).toNat * (s.reg r).toNat) ∧
      t.reg d = BitVec.ofInt 8 ((s.reg d).toInt * (s.reg r).toInt)) ∧
    (∃ t, exec (.cmp a b) s = .next t ∧
      (t.fl = Flags.only Flags.bitE ↔ (s.reg d).toNat = (s.reg r).toNat) ∧
      (t.fl = Flags.only Flags.bitG ↔ (s.reg d).toNat > (s.reg r).toNat) ∧
      (t.fl = Flags.only Flags.bitL ↔ (s.reg d).toNat < (s.reg r).toNat))

/-- R176: on the same state one of JEQ Rk and JNE Rk branches to x[k] and the other falls through to pc + 2; after a
CMP that finds the values equal JEQ jumps and JNE falls through, after one that does not the reverse. -/
def Obligations.JeqJneAreComplements : Prop :=
  (∀ (a : Byte) (k : RegIndex) (s : State), s.pc.toNat ≤ 254 → a.toNat = k →
    ∃ t u, exec (.jeq a) s = .next t ∧ exec (.jne a) s = .next u ∧
      ((t.pc.toNat = (s.reg k).toNat ∧ u.pc.toNat = s.pc.toNat + 2 ∧ Flags.equalSet s.fl = true) ∨
       (t.pc.toNat = s.pc.toNat + 2 ∧ u.pc.toNat = (s.reg k).toNat ∧ Flags.equalSet s.fl = false))) ∧
  (∀ (a b c : Byte) (d r k : RegIndex) (s : State), s.pc.toNat ≤ 251 → a.toNat = d → b.toNat = r →
    c.toNat = k →
    ∃ t u v, exec (.cmp a b) s = .next t ∧ exec (.jeq c) t = .next u ∧ exec (.jne c) t = .next v ∧
      (s.reg d = s.reg r → u.pc.toNat = (s.reg k).toNat ∧ v.pc.toNat = t.pc.toNat + 2) ∧
      (s.reg d ≠ s.reg r → u.pc.toNat = t.pc.toNat + 2 ∧ v.pc.toNat = (s.reg k).toNat))

/-- R164, with the side conditions the spec derives for it: PUSH Ri then POP Rj leaves x[i] in x[j], SP where it was,
the value at SP - 1, and nothing else changed but pc. -/
def Obligations.PushPopRoundTrip : Prop :=
  ∀ (a b : Byte) (i j : RegIndex) (s : State), Memory.wf s.mem = true → s.pc.toNat ≤ 252 →
    a.toNat = i → b.toNat = j → i ≠ 7 → j ≠ 7 → s.sp.toNat ≠ 0 →
    ∃ t u, exec (.push a) s = .next t ∧ exec (.pop b) t = .next u ∧
      u.reg j = s.reg i ∧ u.sp = s.sp ∧ RegsKept [j] s u ∧ u.readByte (s.sp - 1) = s.reg i ∧
      MemKeptBut (s.sp - 1) s u ∧ ControlKept s u ∧ u.pc.toNat = s.pc.toNat + 4

/-- R164, last sentence: over any sequence of PUSH, POP, CALL (operands other than 7) and RET in which no instruction
faults, SP loses one for each push (PUSH, CALL) and gains one for each pop (POP, RET). -/
def Obligations.StackDepthBalance : Prop :=
  ∀ (is : List Instr) (s t : State), (∀ i ∈ is, StackOp i) → s.err = .none → execAll is s = .next t →
    t.err = .none →
    t.sp.toNat + is.countP (fun i => i.op = .push || i.op = .call) =
      s.sp.toNat + is.countP (fun i => i.op = .pop || i.op = .ret)

/-- R177, with the side conditions the spec derives for it: when a RET finds SP where the CALL left it and the stacked
byte not overwritten, control is at the instruction after the CALL and SP is as before the CALL, whatever
happened to the rest of the state in between. -/
def Obligations.RetReturnsAfterCall : Prop :=
  ∀ (a : Byte) (s t u : State), Memory.wf s.mem = true → s.err = .none → exec (.call a) s = .next t →
    t.err = .none → u.sp = t.sp → u.readByte u.sp = t.readByte t.sp →
    ∃ v, exec .ret u = .next v ∧ v.pc.toNat = s.pc.toNat + 2 ∧ v.sp = s.sp

/-- R65, R62: a byte that PUSH or CALL stores is seen by the very next fetch, and a PUSH or CALL that stores into its own
two bytes still completes as fetched (SP = pc + 1 or pc + 2 puts the store there). For PUSH the next fetch is at
pc + 2, so the stored byte is its opcode when SP = pc + 3; for CALL it is at the target, which for CALL R7 always is
the address of the stored return address. What PUSH R7 stores and where CALL R7 goes is decision D19 (log entry
14). -/
def Obligations.StoreIsFetchedNext : Prop :=
  (∀ (s : State) (a : Byte) (r : RegIndex), Memory.wf s.mem = true → s.run = .running →
    OpcodeIs s .push → s.byteAt (s.pc.toNat + 1) = some a → a.toNat = r → s.sp.toNat ≠ 0 →
    ∃ t v, step s = .next t ∧ t.pc.toNat = s.pc.toNat + 2 ∧ v = (if r = 7 then s.sp - 1 else s.reg r) ∧
      t.byteAt (s.sp.toNat - 1) = some v ∧ (s.sp.toNat = s.pc.toNat + 3 → RunsByteNext t v)) ∧
  (∀ (s : State) (a : Byte) (r : RegIndex), Memory.wf s.mem = true → s.run = .running → s.pc.toNat ≤ 253 →
    OpcodeIs s .call → s.byteAt (s.pc.toNat + 1) = some a → a.toNat = r → s.sp.toNat ≠ 0 →
    ∃ t v, step s = .next t ∧ t.pc.toNat = (if r = 7 then s.sp - 1 else s.reg r).toNat ∧
      v.toNat = s.pc.toNat + 2 ∧ t.byteAt (s.sp.toNat - 1) = some v ∧
      (r = 7 ∨ (s.reg r).toNat + 1 = s.sp.toNat → RunsByteNext t v))

/-- R51, R52: after any sequence of stores from reset a cell reads as the byte last written to it, or 0 if none was,
and the stores have changed nothing but memory. -/
def Obligations.MemReadGivesLastWritten : Prop :=
  ∀ (stores : List (Byte × Byte)) (fl : Byte) (s : State),
    s = stores.foldl (fun s w => s.writeByte w.1 w.2) (State.resetWith fl) →
    (∀ a : Byte, s.readByte a = lastWritten stores a) ∧
    s.regs = (State.resetWith fl).regs ∧ s.pc = (State.resetWith fl).pc ∧ s.fl = fl ∧ s.run = .running ∧
    s.err = .none ∧ s.out = []

/-! ### What FL can influence -/

/-- R32, R33, R7, R121's fuel: over runs of any length, two states that differ only in FL and agree on bit E stay so:
bits G, L and 7:3 never influence a run. With the reset states as instances this says that only bit 0 of
FL_RESET matters. -/
def Obligations.OnlyEqualBitInfluencesRun : Prop :=
  ∀ (k : Nat) (s t : State), AgreeButFlags s t → Flags.equalSet s.fl = Flags.equalSet t.fl →
    ∃ s' t', runFrom k s = .next s' ∧ runFrom k t = .next t' ∧ AgreeButFlags s' t' ∧
      Flags.equalSet s'.fl = Flags.equalSet t'.fl

/-- R7, R33: of two states that differ only in FL, a cycle that is no JEQ and no JNE leaves them so, and a completed
CMP makes them equal: a program that executes CMP before its first JEQ or JNE has one trace. -/
def Obligations.CmpErasesOldFlags : Prop :=
  ∀ s t : State, AgreeButFlags s t → ¬ OpcodeIs s .jeq → ¬ OpcodeIs s .jne →
    ∃ s' t', step s = .next s' ∧ step t = .next t' ∧ AgreeButFlags s' t' ∧
      (s.run = .running → s.err = .none → OpcodeIs s .cmp → s'.err = .none → s' = t')
end

