-- ==== Sys2Proof/Laws/Decode.lean ====
section
/-! SUPPORT. The opcode lookup under a valid opcode map, and the decoder on enough bytes. -/

namespace Sys2Proof

/-! ### The row of each instruction -/

@[simp] theorem Instr.op_nop : Instr.nop.op = .nop := rfl
@[simp] theorem Instr.op_ldi (a b : Byte) : (Instr.ldi a b).op = .ldi := rfl
@[simp] theorem Instr.op_prn (a : Byte) : (Instr.prn a).op = .prn := rfl
@[simp] theorem Instr.op_hlt : Instr.hlt.op = .hlt := rfl
@[simp] theorem Instr.op_add (a b : Byte) : (Instr.add a b).op = .add := rfl
@[simp] theorem Instr.op_mul (a b : Byte) : (Instr.mul a b).op = .mul := rfl
@[simp] theorem Instr.op_cmp (a b : Byte) : (Instr.cmp a b).op = .cmp := rfl
@[simp] theorem Instr.op_push (a : Byte) : (Instr.push a).op = .push := rfl
@[simp] theorem Instr.op_pop (a : Byte) : (Instr.pop a).op = .pop := rfl
@[simp] theorem Instr.op_call (a : Byte) : (Instr.call a).op = .call := rfl
@[simp] theorem Instr.op_ret : Instr.ret.op = .ret := rfl
@[simp] theorem Instr.op_jmp (a : Byte) : (Instr.jmp a).op = .jmp := rfl
@[simp] theorem Instr.op_jeq (a : Byte) : (Instr.jeq a).op = .jeq := rfl
@[simp] theorem Instr.op_jne (a : Byte) : (Instr.jne a).op = .jne := rfl

/-! ### The opcode lookup -/

theorem Op.mem_all (o : Op) : o ∈ Op.all := by cases o <;> simp [Op.all]

/-- R84's map meets what the source demands of one: the fourteen bytes are distinct and the no-operation is 0. -/
theorem opc_valid : OpcodeMap.Valid opc where
  nop_zero := rfl
  distinct := by intro o o' h; cases o <;> cases o' <;> first | rfl | exact absurd h (by decide)

/-- The lookup finds a row exactly when the map gives the row that byte. -/
theorem Op.ofByte_eq_some {m : OpcodeMap} (hm : m.Valid) {byte : Byte} {o : Op} :
    Op.ofByte m byte = some o ↔ m o = byte := by
  constructor
  · intro h
    simpa using List.find?_some h
  · rintro rfl
    cases h : Op.ofByte m (m o) with
    | none => simpa using List.find?_eq_none.1 h o (Op.mem_all o)
    | some o' => rw [hm.distinct o' o (by simpa using List.find?_some h)]

theorem Op.ofByte_eq_none {m : OpcodeMap} {byte : Byte} :
    Op.ofByte m byte = none ↔ ∀ o : Op, m o ≠ byte := by
  simp [Op.ofByte, List.find?_eq_none, Op.mem_all]

@[simp] theorem Op.instr_op (o : Op) (a b : Byte) : (o.instr a b).op = o := by cases o <;> rfl

/-- A row without operands drops both bytes (20_memory.md R67). -/
theorem Op.instr_f0 {o : Op} (h : o.format = .f0) (a b a' b' : Byte) : o.instr a b = o.instr a' b' := by
  cases o <;> simp [Op.format] at h <;> rfl

/-- A row with one operand drops the second byte. -/
theorem Op.instr_f1 {o : Op} (h : o.format = .f1) (a b b' : Byte) : o.instr a b = o.instr a b' := by
  cases o <;> simp [Op.format] at h <;> rfl

/-- Three bytes are enough for every row: the decoder rejects them only for an unsupported opcode. -/
theorem decodeWith_three {m : OpcodeMap} (byte a b : Byte) :
    (Op.ofByte m byte = none ∧ decodeWith m [byte, a, b] = .error (.unsupportedOpcode byte)) ∨
    (∃ o rest, Op.ofByte m byte = some o ∧ decodeWith m [byte, a, b] = .ok (o.instr a b, rest)) := by
  cases h : Op.ofByte m byte with
  | none => exact .inl ⟨rfl, by simp [decodeWith, h]⟩
  | some o =>
    cases hf : o.format with
    | f0 => exact .inr ⟨o, [a, b], rfl, by simp [decodeWith, h, hf, Op.instr_f0 hf a b 0 0]⟩
    | f1 => exact .inr ⟨o, [b], rfl, by simp [decodeWith, h, hf, Op.instr_f1 hf a b 0]⟩
    | f2r => exact .inr ⟨o, [], rfl, by simp [decodeWith, h, hf]⟩
    | f2i => exact .inr ⟨o, [], rfl, by simp [decodeWith, h, hf]⟩

end Sys2Proof
end

