-- ==== Sys2Proof/Laws/Memory.lean ====
section
/-! SUPPORT. The laws of memory (spec/20_memory.md R51, R52): read after write, and the canonical form, which every
operation keeps and in which equal memories are equal data. -/

namespace Sys2Proof.Machine

@[simp] theorem Memory.read_nil (a : Nat) : Memory.read [] a = Config.memReset := rfl

theorem Memory.read_cons_cell (k : Nat) (w : Byte) (rest : List Host.Cell) (a : Nat) :
    Memory.read ((k, w) :: rest) a = if k = a then w else Memory.read rest a := rfl

@[simp] theorem Memory.wfFrom_nil (lo : Nat) : Memory.wfFrom lo [] = true := rfl

theorem Memory.wfFrom_cons_iff {lo k : Nat} {w : Byte} {rest : List Host.Cell} :
    Memory.wfFrom lo ((k, w) :: rest) = true ↔
      lo ≤ k ∧ k < Config.memSize ∧ w ≠ Config.memReset ∧ Memory.wfFrom (k + 1) rest = true := by
  simp [Memory.wfFrom, and_assoc]

theorem Memory.wfFrom_mono {lo hi : Nat} (h : lo ≤ hi) :
    ∀ {m : List Host.Cell}, Memory.wfFrom hi m = true → Memory.wfFrom lo m = true
  | [], _ => rfl
  | (k, w) :: rest, hm => by
    rw [Memory.wfFrom_cons_iff] at hm ⊢
    exact ⟨h.trans hm.1, hm.2⟩

/-- Below the first address of a canonical list nothing is listed. -/
theorem Memory.read_below {lo a : Nat} (h : a < lo) :
    ∀ {m : List Host.Cell}, Memory.wfFrom lo m = true → Memory.read m a = Config.memReset
  | [], _ => rfl
  | (k, w) :: rest, hm => by
    rw [Memory.wfFrom_cons_iff] at hm
    rw [Memory.read_cons_cell, if_neg (by omega)]
    exact Memory.read_below (by omega) hm.2.2.2

/-- `Memory.cons` keeps the canonical form. -/
theorem Memory.wfFrom_cons {lo a : Nat} {v : Byte} {rest : List Host.Cell} (hlo : lo ≤ a)
    (ha : a < Config.memSize) (hr : Memory.wfFrom (a + 1) rest = true) :
    Memory.wfFrom lo (Memory.cons a v rest) = true := by
  unfold Memory.cons
  split
  · exact Memory.wfFrom_mono (by omega) hr
  · next hv => exact Memory.wfFrom_cons_iff.2 ⟨hlo, ha, hv, hr⟩

/-- What `Memory.cons` reads as, in front of a canonical list of higher addresses. -/
theorem Memory.read_cons {a : Nat} {v : Byte} {rest : List Host.Cell}
    (hr : Memory.wfFrom (a + 1) rest = true) (x : Nat) :
    Memory.read (Memory.cons a v rest) x = if x = a then v else Memory.read rest x := by
  unfold Memory.cons
  split
  · next hv =>
    split
    · next hx => subst hx; rw [Memory.read_below (by omega) hr, hv]
    · rfl
  · rw [Memory.read_cons_cell]
    by_cases hx : a = x
    · simp [hx]
    · rw [if_neg hx, if_neg (Ne.symm hx)]

theorem Memory.write_wfFrom {a : Nat} (ha : a < Config.memSize) (v : Byte) :
    ∀ {m : List Host.Cell} {lo : Nat}, lo ≤ a → Memory.wfFrom lo m = true →
      Memory.wfFrom lo (Memory.write m a v) = true
  | [], _, hlo, _ => Memory.wfFrom_cons hlo ha rfl
  | (k, w) :: rest, lo, hlo, hm => by
    rw [Memory.wfFrom_cons_iff] at hm
    obtain ⟨hk, hk256, hw, hr⟩ := hm
    unfold Memory.write
    split
    · next h => exact Memory.wfFrom_cons hlo ha (Memory.wfFrom_cons_iff.2 ⟨h, hk256, hw, hr⟩)
    · split
      · next _ h => subst h; exact Memory.wfFrom_cons hlo ha hr
      · exact Memory.wfFrom_cons_iff.2 ⟨hk, hk256, hw, Memory.write_wfFrom ha v (by omega) hr⟩

/-- Every store keeps the canonical form. -/
theorem Memory.write_wf {m : List Host.Cell} {a : Nat} (ha : a < Config.memSize) (v : Byte)
    (hm : Memory.wf m = true) : Memory.wf (Memory.write m a v) = true :=
  Memory.write_wfFrom ha v (Nat.zero_le a) hm

theorem Memory.read_write_from {a : Nat} (v : Byte) (x : Nat) :
    ∀ {m : List Host.Cell} {lo : Nat}, Memory.wfFrom lo m = true →
      Memory.read (Memory.write m a v) x = if x = a then v else Memory.read m x
  | [], _, _ => Memory.read_cons rfl x
  | (k, w) :: rest, lo, hm => by
    rw [Memory.wfFrom_cons_iff] at hm
    obtain ⟨-, hk256, hw, hr⟩ := hm
    unfold Memory.write
    split
    · next h => exact Memory.read_cons (Memory.wfFrom_cons_iff.2 ⟨h, hk256, hw, hr⟩) x
    · next hak =>
      split
      · next h =>
        subst h
        rw [Memory.read_cons hr, Memory.read_cons_cell]
        by_cases hx : x = a
        · simp [hx]
        · rw [if_neg hx, if_neg hx, if_neg (Ne.symm hx)]
      · next hne =>
        rw [Memory.read_cons_cell, Memory.read_cons_cell, Memory.read_write_from v x hr]
        by_cases hx : k = x
        · rw [if_pos hx, if_pos hx, if_neg (by omega)]
        · rw [if_neg hx, if_neg hx]

/-- A read after a store: the byte stored at that address, the old byte at every other. -/
theorem Memory.read_write {m : List Host.Cell} (hm : Memory.wf m = true) (a : Nat) (v : Byte) (x : Nat) :
    Memory.read (Memory.write m a v) x = if x = a then v else Memory.read m x :=
  Memory.read_write_from v x hm

/-- A canonical memory reads as reset contents from 256 on. -/
theorem Memory.read_above {x : Nat} (hx : Config.memSize ≤ x) :
    ∀ {m : List Host.Cell} {lo : Nat}, Memory.wfFrom lo m = true → Memory.read m x = Config.memReset
  | [], _, _ => rfl
  | (k, w) :: rest, lo, hm => by
    rw [Memory.wfFrom_cons_iff] at hm
    rw [Memory.read_cons_cell, if_neg (by omega)]
    exact Memory.read_above hx hm.2.2.2

/-- Two canonical memories that read alike from `lo` on are the same list. -/
theorem Memory.ext_from :
    ∀ {m m' : List Host.Cell} {lo : Nat}, Memory.wfFrom lo m = true → Memory.wfFrom lo m' = true →
      (∀ x, Memory.read m x = Memory.read m' x) → m = m'
  | [], [], _, _, _, _ => rfl
  | [], (k, w) :: rest, lo, _, hm', h => by
    rw [Memory.wfFrom_cons_iff] at hm'
    exact absurd (by simpa [Memory.read_cons_cell] using (h k).symm) hm'.2.2.1
  | (k, w) :: rest, [], lo, hm, _, h => by
    rw [Memory.wfFrom_cons_iff] at hm
    exact absurd (by simpa [Memory.read_cons_cell] using h k) hm.2.2.1
  | (k, w) :: rest, (k', w') :: rest', lo, hm, hm', h => by
    rw [Memory.wfFrom_cons_iff] at hm hm'
    obtain ⟨-, -, hw, hr⟩ := hm
    obtain ⟨-, -, hw', hr'⟩ := hm'
    have hkk : k = k' := by
      rcases Nat.lt_trichotomy k k' with hlt | heq | hgt
      · have := h k
        rw [Memory.read_cons_cell, Memory.read_cons_cell, if_pos rfl, if_neg (by omega),
          Memory.read_below (by omega) hr'] at this
        exact absurd this hw
      · exact heq
      · have := h k'
        rw [Memory.read_cons_cell, Memory.read_cons_cell, if_pos rfl, if_neg (by omega),
          Memory.read_below (by omega) hr] at this
        exact absurd this.symm hw'
    subst hkk
    have hww : w = w' := by simpa [Memory.read_cons_cell] using h k
    subst hww
    have hrest : rest = rest' := Memory.ext_from hr hr' fun x => by
      by_cases hx : k = x
      · subst hx; rw [Memory.read_below (by omega) hr, Memory.read_below (by omega) hr']
      · simpa [Memory.read_cons_cell, hx] using h x
    rw [hrest]

/-! ### The same at the state -/

theorem State.writeByte_wf {s : State} (h : Memory.wf s.mem = true) (a v : Byte) :
    Memory.wf (s.writeByte a v).mem = true :=
  Memory.write_wf (by simpa [Config.memSize] using a.isLt) v h

theorem State.readByte_writeByte {s : State} (h : Memory.wf s.mem = true) (a v x : Byte) :
    (s.writeByte a v).readByte x = if x = a then v else s.readByte x := by
  rw [State.readByte, State.writeByte, Memory.read_write h]
  simp only [BitVec.toNat_inj, State.readByte]

theorem State.byteAt_of_le {s : State} {a : Nat} (h : a ≤ 255) :
    s.byteAt a = some (Memory.read s.mem a) := if_pos h

theorem State.byteAt_of_gt {s : State} {a : Nat} (h : 255 < a) : s.byteAt a = none := if_neg (by omega)

/-- Storing bytes keeps the canonical form. -/
theorem State.placeBytes_wf (bs : List Byte) :
    ∀ {s : State} {a : Nat}, Memory.wf s.mem = true → Memory.wf (s.placeBytes a bs).mem = true := by
  induction bs with
  | nil => intro s a h; exact h
  | cons v rest ih =>
    intro s a h
    unfold State.placeBytes
    split
    · next ha => exact ih (Memory.write_wf (by simp [Config.memSize]; omega) v h)
    · exact h

theorem State.resetWith_wf (fl : Byte) : Memory.wf (State.resetWith fl).mem = true := rfl

theorem State.reset_wf : Memory.wf State.reset.mem = true := rfl

end Sys2Proof.Machine
end

