-- ==== Sys2Proof/Laws/State.lean ====
section
/-! SUPPORT. One lemma per field per update of the state, true by rfl, and the register file as the contract of
spec/10_state.md R22 states it. -/

namespace Sys2Proof.Machine

variable (s : State)

/-! ### `State.setReg` -/

@[simp] theorem State.setReg_mem (i : RegIndex) (v : Byte) : (s.setReg i v).mem = s.mem := rfl
@[simp] theorem State.setReg_regs (i : RegIndex) (v : Byte) : (s.setReg i v).regs = s.regs.set i v := rfl
@[simp] theorem State.setReg_pc (i : RegIndex) (v : Byte) : (s.setReg i v).pc = s.pc := rfl
@[simp] theorem State.setReg_fl (i : RegIndex) (v : Byte) : (s.setReg i v).fl = s.fl := rfl
@[simp] theorem State.setReg_run (i : RegIndex) (v : Byte) : (s.setReg i v).run = s.run := rfl
@[simp] theorem State.setReg_err (i : RegIndex) (v : Byte) : (s.setReg i v).err = s.err := rfl
@[simp] theorem State.setReg_out (i : RegIndex) (v : Byte) : (s.setReg i v).out = s.out := rfl

/-! ### `State.writeByte` -/

@[simp] theorem State.writeByte_mem (a v : Byte) : (s.writeByte a v).mem = Memory.write s.mem a.toNat v := rfl
@[simp] theorem State.writeByte_regs (a v : Byte) : (s.writeByte a v).regs = s.regs := rfl
@[simp] theorem State.writeByte_pc (a v : Byte) : (s.writeByte a v).pc = s.pc := rfl
@[simp] theorem State.writeByte_fl (a v : Byte) : (s.writeByte a v).fl = s.fl := rfl
@[simp] theorem State.writeByte_run (a v : Byte) : (s.writeByte a v).run = s.run := rfl
@[simp] theorem State.writeByte_err (a v : Byte) : (s.writeByte a v).err = s.err := rfl
@[simp] theorem State.writeByte_out (a v : Byte) : (s.writeByte a v).out = s.out := rfl

/-! ### `State.advance` -/

@[simp] theorem State.advance_mem (n : Nat) : (s.advance n).mem = s.mem := rfl
@[simp] theorem State.advance_regs (n : Nat) : (s.advance n).regs = s.regs := rfl
@[simp] theorem State.advance_pc (n : Nat) : (s.advance n).pc = s.pc + BitVec.ofNat 9 n := rfl
@[simp] theorem State.advance_fl (n : Nat) : (s.advance n).fl = s.fl := rfl
@[simp] theorem State.advance_run (n : Nat) : (s.advance n).run = s.run := rfl
@[simp] theorem State.advance_err (n : Nat) : (s.advance n).err = s.err := rfl
@[simp] theorem State.advance_out (n : Nat) : (s.advance n).out = s.out := rfl

/-! ### `State.jumpTo` -/

@[simp] theorem State.jumpTo_mem (t : Byte) : (s.jumpTo t).mem = s.mem := rfl
@[simp] theorem State.jumpTo_regs (t : Byte) : (s.jumpTo t).regs = s.regs := rfl
@[simp] theorem State.jumpTo_pc (t : Byte) : (s.jumpTo t).pc = t.setWidth 9 := rfl
@[simp] theorem State.jumpTo_fl (t : Byte) : (s.jumpTo t).fl = s.fl := rfl
@[simp] theorem State.jumpTo_run (t : Byte) : (s.jumpTo t).run = s.run := rfl
@[simp] theorem State.jumpTo_err (t : Byte) : (s.jumpTo t).err = s.err := rfl
@[simp] theorem State.jumpTo_out (t : Byte) : (s.jumpTo t).out = s.out := rfl

/-! ### `State.setFlags` -/

@[simp] theorem State.setFlags_mem (v : Byte) : (s.setFlags v).mem = s.mem := rfl
@[simp] theorem State.setFlags_regs (v : Byte) : (s.setFlags v).regs = s.regs := rfl
@[simp] theorem State.setFlags_pc (v : Byte) : (s.setFlags v).pc = s.pc := rfl
@[simp] theorem State.setFlags_fl (v : Byte) : (s.setFlags v).fl = v := rfl
@[simp] theorem State.setFlags_run (v : Byte) : (s.setFlags v).run = s.run := rfl
@[simp] theorem State.setFlags_err (v : Byte) : (s.setFlags v).err = s.err := rfl
@[simp] theorem State.setFlags_out (v : Byte) : (s.setFlags v).out = s.out := rfl

/-! ### `State.emit` -/

@[simp] theorem State.emit_mem (v : Byte) : (s.emit v).mem = s.mem := rfl
@[simp] theorem State.emit_regs (v : Byte) : (s.emit v).regs = s.regs := rfl
@[simp] theorem State.emit_pc (v : Byte) : (s.emit v).pc = s.pc := rfl
@[simp] theorem State.emit_fl (v : Byte) : (s.emit v).fl = s.fl := rfl
@[simp] theorem State.emit_run (v : Byte) : (s.emit v).run = s.run := rfl
@[simp] theorem State.emit_err (v : Byte) : (s.emit v).err = s.err := rfl
@[simp] theorem State.emit_out (v : Byte) : (s.emit v).out = s.out ++ [v] := rfl

/-! ### `State.halt` -/

@[simp] theorem State.halt_mem : s.halt.mem = s.mem := rfl
@[simp] theorem State.halt_regs : s.halt.regs = s.regs := rfl
@[simp] theorem State.halt_pc : s.halt.pc = s.pc := rfl
@[simp] theorem State.halt_fl : s.halt.fl = s.fl := rfl
@[simp] theorem State.halt_run : s.halt.run = .halted := rfl
@[simp] theorem State.halt_err : s.halt.err = s.err := rfl
@[simp] theorem State.halt_out : s.halt.out = s.out := rfl

/-! ### `State.raise` -/

@[simp] theorem State.raise_mem (r : FaultRecord) : (s.raise r).mem = s.mem := rfl
@[simp] theorem State.raise_regs (r : FaultRecord) : (s.raise r).regs = s.regs := rfl
@[simp] theorem State.raise_pc (r : FaultRecord) : (s.raise r).pc = s.pc := rfl
@[simp] theorem State.raise_fl (r : FaultRecord) : (s.raise r).fl = s.fl := rfl
@[simp] theorem State.raise_run (r : FaultRecord) : (s.raise r).run = .halted := rfl
@[simp] theorem State.raise_err (r : FaultRecord) : (s.raise r).err = r := rfl
@[simp] theorem State.raise_out (r : FaultRecord) : (s.raise r).out = s.out := rfl

/-! ### Reading through an update -/

@[simp] theorem State.reg_setReg_same (i : RegIndex) (v : Byte) : (s.setReg i v).reg i = v := by
  simp [State.reg, State.setReg]

theorem State.reg_setReg_ne {i j : RegIndex} (v : Byte) (h : j ≠ i) : (s.setReg i v).reg j = s.reg j := by
  have : (i : Nat) ≠ j := fun e => h (Fin.ext e.symm)
  simp [State.reg, State.setReg, Vector.getElem_set_ne, this]

/-- The contract of the register file (R22): a read returns the last value written. -/
theorem State.reg_setReg (i j : RegIndex) (v : Byte) :
    (s.setReg i v).reg j = if j = i then v else s.reg j := by
  split
  · next h => subst h; exact s.reg_setReg_same j v
  · next h => exact s.reg_setReg_ne v h

@[simp] theorem State.reg_writeByte (a v : Byte) (j : RegIndex) : (s.writeByte a v).reg j = s.reg j := rfl
@[simp] theorem State.reg_advance (n : Nat) (j : RegIndex) : (s.advance n).reg j = s.reg j := rfl
@[simp] theorem State.reg_jumpTo (t : Byte) (j : RegIndex) : (s.jumpTo t).reg j = s.reg j := rfl
@[simp] theorem State.reg_setFlags (v : Byte) (j : RegIndex) : (s.setFlags v).reg j = s.reg j := rfl
@[simp] theorem State.reg_emit (v : Byte) (j : RegIndex) : (s.emit v).reg j = s.reg j := rfl
@[simp] theorem State.reg_halt (j : RegIndex) : (s.halt).reg j = s.reg j := rfl
@[simp] theorem State.reg_raise (r : FaultRecord) (j : RegIndex) : (s.raise r).reg j = s.reg j := rfl

@[simp] theorem State.sp_writeByte (a v : Byte) : (s.writeByte a v).sp = s.sp := rfl
@[simp] theorem State.sp_advance (n : Nat) : (s.advance n).sp = s.sp := rfl
@[simp] theorem State.sp_jumpTo (t : Byte) : (s.jumpTo t).sp = s.sp := rfl
@[simp] theorem State.sp_setFlags (v : Byte) : (s.setFlags v).sp = s.sp := rfl
@[simp] theorem State.sp_emit (v : Byte) : (s.emit v).sp = s.sp := rfl
@[simp] theorem State.sp_halt : (s.halt).sp = s.sp := rfl
@[simp] theorem State.sp_raise (r : FaultRecord) : (s.raise r).sp = s.sp := rfl

@[simp] theorem State.sp_eq_reg : s.reg 7 = s.sp := rfl
@[simp] theorem State.sp_setReg_sp (v : Byte) : (s.setReg Config.spIndex v).sp = v :=
  s.reg_setReg_same Config.spIndex v

@[simp] theorem State.readByte_setReg (i : RegIndex) (v : Byte) (x : Byte) : (s.setReg i v).readByte x = s.readByte x := rfl
@[simp] theorem State.readByte_advance (n : Nat) (x : Byte) : (s.advance n).readByte x = s.readByte x := rfl
@[simp] theorem State.readByte_jumpTo (t : Byte) (x : Byte) : (s.jumpTo t).readByte x = s.readByte x := rfl
@[simp] theorem State.readByte_setFlags (v : Byte) (x : Byte) : (s.setFlags v).readByte x = s.readByte x := rfl
@[simp] theorem State.readByte_emit (v : Byte) (x : Byte) : (s.emit v).readByte x = s.readByte x := rfl
@[simp] theorem State.readByte_halt (x : Byte) : (s.halt).readByte x = s.readByte x := rfl
@[simp] theorem State.readByte_raise (r : FaultRecord) (x : Byte) : (s.raise r).readByte x = s.readByte x := rfl

/-! ### Two register files that agree on every register are equal -/

theorem State.regs_ext {s t : State} (h : ∀ i : RegIndex, s.reg i = t.reg i) : s.regs = t.regs := by
  apply Vector.ext
  intro i hi
  exact h ⟨i, hi⟩

/-! ### Storing bytes changes memory only -/

@[simp] theorem State.placeBytes_regs (a : Nat) (bs : List Byte) : (s.placeBytes a bs).regs = s.regs := by
  induction bs generalizing s a with
  | nil => rfl
  | cons v rest ih => unfold State.placeBytes; split <;> simp [ih]

@[simp] theorem State.placeBytes_pc (a : Nat) (bs : List Byte) : (s.placeBytes a bs).pc = s.pc := by
  induction bs generalizing s a with
  | nil => rfl
  | cons v rest ih => unfold State.placeBytes; split <;> simp [ih]

@[simp] theorem State.placeBytes_fl (a : Nat) (bs : List Byte) : (s.placeBytes a bs).fl = s.fl := by
  induction bs generalizing s a with
  | nil => rfl
  | cons v rest ih => unfold State.placeBytes; split <;> simp [ih]

@[simp] theorem State.placeBytes_run (a : Nat) (bs : List Byte) : (s.placeBytes a bs).run = s.run := by
  induction bs generalizing s a with
  | nil => rfl
  | cons v rest ih => unfold State.placeBytes; split <;> simp [ih]

@[simp] theorem State.placeBytes_err (a : Nat) (bs : List Byte) : (s.placeBytes a bs).err = s.err := by
  induction bs generalizing s a with
  | nil => rfl
  | cons v rest ih => unfold State.placeBytes; split <;> simp [ih]

@[simp] theorem State.placeBytes_out (a : Nat) (bs : List Byte) : (s.placeBytes a bs).out = s.out := by
  induction bs generalizing s a with
  | nil => rfl
  | cons v rest ih => unfold State.placeBytes; split <;> simp [ih]

end Sys2Proof.Machine
end

