-- ==== Sys2Proof/Laws/Ops.lean ====
section
/-! SUPPORT. For each shared operation, once, everything it can do: operand use, register index, stack-pointer
updates, the end of an instruction. -/

namespace Sys2Proof.Machine

variable {s t : State} {a b : Byte}

/-! ### Operands -/

theorem State.operandA_eq_some {v : Byte} : s.operandA a = some v ↔ s.pc.toNat + 1 ≤ 255 ∧ a = v := by
  unfold State.operandA; split <;> simp <;> omega

theorem State.operandA_eq_none : s.operandA a = none ↔ 255 < s.pc.toNat + 1 := by
  unfold State.operandA; split <;> simp <;> omega

theorem State.operandB_eq_some {v : Byte} : s.operandB b = some v ↔ s.pc.toNat + 2 ≤ 255 ∧ b = v := by
  unfold State.operandB; split <;> simp <;> omega

theorem State.operandB_eq_none : s.operandB b = none ↔ 255 < s.pc.toNat + 2 := by
  unfold State.operandB; split <;> simp <;> omega

theorem regIndex_eq_some {i : RegIndex} : regIndex b = some i ↔ b.toNat = i := by
  unfold regIndex
  split
  · simp [Fin.ext_iff]
  · simp; omega

theorem regIndex_eq_none : regIndex b = none ↔ 7 < b.toNat := by
  unfold regIndex; split <;> simp <;> omega

theorem State.operandReg_eq_some {i : RegIndex} :
    s.operandReg a = some i ↔ s.pc.toNat + 1 ≤ 255 ∧ a.toNat = i := by
  simp [State.operandReg, Option.bind_eq_some_iff, State.operandA_eq_some, regIndex_eq_some, and_assoc]

theorem State.operandReg_eq_none :
    s.operandReg a = none ↔ 255 < s.pc.toNat + 1 ∨ 7 < a.toNat := by
  cases h : s.operandA a with
  | none => simp [State.operandReg, h, State.operandA_eq_none.1 h]
  | some v =>
    obtain ⟨hpc, rfl⟩ := State.operandA_eq_some.1 h
    simp [State.operandReg, h, regIndex_eq_none]; omega

theorem State.operandRegReg_eq_some {d r : RegIndex} :
    s.operandRegReg a b = some (d, r) ↔ s.pc.toNat + 2 ≤ 255 ∧ a.toNat = d ∧ b.toNat = r := by
  simp only [State.operandRegReg, Option.bind_eq_bind, Option.bind_eq_some_iff, State.operandA_eq_some,
    State.operandB_eq_some, regIndex_eq_some, Option.pure_def, Option.some.injEq, Prod.mk.injEq]
  constructor
  · rintro ⟨_, ⟨_, rfl⟩, _, ⟨h, rfl⟩, _, hd, _, hr, rfl, rfl⟩; exact ⟨h, hd, hr⟩
  · rintro ⟨h, hd, hr⟩; exact ⟨a, ⟨by omega, rfl⟩, b, ⟨h, rfl⟩, d, hd, r, hr, rfl, rfl⟩

theorem State.operandRegReg_eq_none :
    s.operandRegReg a b = none ↔ 255 < s.pc.toNat + 2 ∨ 7 < a.toNat ∨ 7 < b.toNat := by
  rw [← not_iff_not, ← ne_eq, Option.ne_none_iff_exists']
  simp only [Prod.exists, State.operandRegReg_eq_some]
  constructor
  · rintro ⟨d, r, h, hd, hr⟩; omega
  · intro h
    exact ⟨⟨a.toNat, by omega⟩, ⟨b.toNat, by omega⟩, by omega, rfl, rfl⟩

theorem State.operandRegImm_eq_some {d : RegIndex} {v : Byte} :
    s.operandRegImm a b = some (d, v) ↔ s.pc.toNat + 2 ≤ 255 ∧ a.toNat = d ∧ b = v := by
  simp only [State.operandRegImm, Option.bind_eq_bind, Option.bind_eq_some_iff, State.operandA_eq_some,
    State.operandB_eq_some, regIndex_eq_some, Option.pure_def, Option.some.injEq, Prod.mk.injEq]
  constructor
  · rintro ⟨_, ⟨_, rfl⟩, _, ⟨h, rfl⟩, _, hd, rfl, rfl⟩; exact ⟨h, hd, rfl⟩
  · rintro ⟨h, hd, rfl⟩; exact ⟨a, ⟨by omega, rfl⟩, b, ⟨h, rfl⟩, d, hd, rfl, rfl⟩

theorem State.operandRegImm_eq_none :
    s.operandRegImm a b = none ↔ 255 < s.pc.toNat + 2 ∨ 7 < a.toNat := by
  rw [← not_iff_not, ← ne_eq, Option.ne_none_iff_exists']
  simp only [Prod.exists, State.operandRegImm_eq_some]
  constructor
  · rintro ⟨d, r, h, hd, -⟩; omega
  · intro h
    exact ⟨⟨a.toNat, by omega⟩, b, by omega, rfl, rfl⟩

theorem State.returnAddress_eq_some {v : Byte} :
    s.returnAddress = some v ↔ s.pc.toNat + 2 ≤ 255 ∧ BitVec.ofNat 8 (s.pc.toNat + 2) = v := by
  unfold State.returnAddress; split <;> simp <;> omega

theorem State.returnAddress_eq_none : s.returnAddress = none ↔ 255 < s.pc.toNat + 2 := by
  unfold State.returnAddress; split <;> simp <;> omega

/-! ### Stack pointer -/

theorem State.decSp_eq_some :
    s.decSp = some t ↔ s.sp.toNat ≠ 0 ∧ t = s.setReg Config.spIndex (s.sp - 1) := by
  unfold State.decSp
  split
  · next h => simp [h]
  · next h => simp [h, eq_comm]

theorem State.decSp_eq_none : s.decSp = none ↔ s.sp.toNat = 0 := by
  unfold State.decSp; split <;> simp_all

theorem State.incSp_eq_some :
    s.incSp = some t ↔ s.sp.toNat ≠ 255 ∧ t = s.setReg Config.spIndex (s.sp + 1) := by
  unfold State.incSp
  split
  · next h => simp [h]
  · next h => simp [h, eq_comm]

theorem State.incSp_eq_none : s.incSp = none ↔ s.sp.toNat = 255 := by
  unfold State.incSp; split <;> simp_all

/-! ### Jumps -/

theorem State.jumpReg_eq_some :
    s.jumpReg a = some t ↔
      ∃ r : RegIndex, s.pc.toNat + 1 ≤ 255 ∧ a.toNat = r ∧ t = s.jumpTo (s.reg r) := by
  simp only [State.jumpReg, Option.bind_eq_bind, Option.bind_eq_some_iff, State.operandReg_eq_some,
    Option.pure_def, Option.some.injEq, and_assoc]
  exact exists_congr fun r => by rw [eq_comm (a := t)]

theorem State.jumpReg_eq_none : s.jumpReg a = none ↔ 255 < s.pc.toNat + 1 ∨ 7 < a.toNat := by
  rw [← State.operandReg_eq_none (s := s) (a := a)]
  cases h : s.operandReg a <;> simp [State.jumpReg, h]

/-! ### The end of an instruction -/

theorem State.orOutOfBounds_some (s : State) (t : State) : s.orOutOfBounds (some t) = .next t := rfl

theorem State.orOutOfBounds_none (s : State) :
    s.orOutOfBounds none = .next (s.raise (.outOfBounds s.pc)) := rfl

/-- An instruction answers its effect, or the fault raised from the state at the start of the cycle. -/
theorem State.orOutOfBounds_cases (s : State) (checked : Option State) :
    (∃ t, checked = some t ∧ s.orOutOfBounds checked = .next t) ∨
      (checked = none ∧ s.orOutOfBounds checked = .next (s.raise (.outOfBounds s.pc))) := by
  cases checked with
  | none => exact .inr ⟨rfl, rfl⟩
  | some t => exact .inl ⟨t, rfl, rfl⟩

/-! ### The program counter as a number -/

/-- The pc advances without wrap while the sum fits in 9 bits (10_state.md R29). -/
theorem State.advance_pc_toNat {n : Nat} (h : s.pc.toNat + n < 512) :
    (s.advance n).pc.toNat = s.pc.toNat + n := by
  simp only [State.advance_pc, BitVec.toNat_add, BitVec.toNat_ofNat]
  omega

/-- A jump target is the 8-bit value zero-extended (10_state.md R29). -/
theorem State.jumpTo_pc_toNat (s : State) (v : Byte) : (s.jumpTo v).pc.toNat = v.toNat := by
  simp only [State.jumpTo_pc, BitVec.toNat_setWidth]
  have := v.isLt
  omega

end Sys2Proof.Machine
end

