-- ==== Sys2Proof/Laws/Exec.lean ====
section
/-! SUPPORT. For each meaning, once, everything it can do: its effect with the guards under which it has it, or the
fault with the conditions under which it takes it. Later proofs take these cases and unfold no meaning. -/

namespace Sys2Proof.Machine

variable (a b : Byte) (s : State)

theorem execLdi_cases :
    (∃ d : RegIndex, s.pc.toNat + 2 ≤ 255 ∧ a.toNat = d ∧
      execLdi a b s = .next ((s.setReg d b).advance 3)) ∨
    ((255 < s.pc.toNat + 2 ∨ 7 < a.toNat) ∧ execLdi a b s = .next (s.raise (.outOfBounds s.pc))) := by
  cases h : s.operandRegImm a b with
  | none => exact .inr ⟨State.operandRegImm_eq_none.1 h, by simp [execLdi, h, State.orOutOfBounds]⟩
  | some p =>
    obtain ⟨d, v⟩ := p
    obtain ⟨hpc, hd, rfl⟩ := State.operandRegImm_eq_some.1 h
    exact .inl ⟨d, hpc, hd, by simp [execLdi, h, State.orOutOfBounds]⟩

theorem execPrn_cases :
    (∃ r : RegIndex, s.pc.toNat + 1 ≤ 255 ∧ a.toNat = r ∧
      execPrn a s = .next ((s.emit (s.reg r)).advance 2)) ∨
    ((255 < s.pc.toNat + 1 ∨ 7 < a.toNat) ∧ execPrn a s = .next (s.raise (.outOfBounds s.pc))) := by
  cases h : s.operandReg a with
  | none => exact .inr ⟨State.operandReg_eq_none.1 h, by simp [execPrn, h, State.orOutOfBounds]⟩
  | some r =>
    obtain ⟨hpc, hr⟩ := State.operandReg_eq_some.1 h
    exact .inl ⟨r, hpc, hr, by simp [execPrn, h, State.orOutOfBounds]⟩

/-- The shared course of ADD, MUL and CMP. -/
theorem aluInstruction_cases (op : AluOp) :
    (∃ d r : RegIndex, s.pc.toNat + 2 ≤ 255 ∧ a.toNat = d ∧ b.toNat = r ∧
      aluInstruction op a b s = .next ((s.writeAlu d (alu op (s.reg d) (s.reg r))).advance 3)) ∨
    ((255 < s.pc.toNat + 2 ∨ 7 < a.toNat ∨ 7 < b.toNat) ∧
      aluInstruction op a b s = .next (s.raise (.outOfBounds s.pc))) := by
  cases h : s.operandRegReg a b with
  | none => exact .inr ⟨State.operandRegReg_eq_none.1 h, by simp [aluInstruction, h, State.orOutOfBounds]⟩
  | some p =>
    obtain ⟨d, r⟩ := p
    obtain ⟨hpc, hd, hr⟩ := State.operandRegReg_eq_some.1 h
    exact .inl ⟨d, r, hpc, hd, hr, by simp [aluInstruction, h, State.orOutOfBounds]⟩

theorem execPush_cases :
    (∃ (r : RegIndex) (t : State), s.pc.toNat + 1 ≤ 255 ∧ a.toNat = r ∧ s.decSp = some t ∧
      execPush a s = .next ((t.writeByte t.sp (t.reg r)).advance 2)) ∨
    ((255 < s.pc.toNat + 1 ∨ 7 < a.toNat ∨ s.sp.toNat = 0) ∧
      execPush a s = .next (s.raise (.outOfBounds s.pc))) := by
  cases h : s.operandReg a with
  | none =>
    exact .inr ⟨(State.operandReg_eq_none.1 h).imp_right .inl, by simp [execPush, h, State.orOutOfBounds]⟩
  | some r =>
    obtain ⟨hpc, hr⟩ := State.operandReg_eq_some.1 h
    cases hs : s.decSp with
    | none =>
      exact .inr ⟨.inr (.inr (State.decSp_eq_none.1 hs)), by simp [execPush, h, hs, State.orOutOfBounds]⟩
    | some t => exact .inl ⟨r, t, hpc, hr, rfl, by simp [execPush, h, hs, State.orOutOfBounds]⟩

theorem execPop_cases :
    (∃ (d : RegIndex) (t : State), s.pc.toNat + 1 ≤ 255 ∧ a.toNat = d ∧
      (s.setReg d (s.readByte s.sp)).incSp = some t ∧ execPop a s = .next (t.advance 2)) ∨
    ((255 < s.pc.toNat + 1 ∨ 7 < a.toNat ∨
        ∃ d : RegIndex, a.toNat = d ∧ (s.setReg d (s.readByte s.sp)).sp.toNat = 255) ∧
      execPop a s = .next (s.raise (.outOfBounds s.pc))) := by
  cases h : s.operandReg a with
  | none =>
    exact .inr ⟨(State.operandReg_eq_none.1 h).imp_right .inl, by simp [execPop, h, State.orOutOfBounds]⟩
  | some d =>
    obtain ⟨hpc, hd⟩ := State.operandReg_eq_some.1 h
    cases hs : (s.setReg d (s.readByte s.sp)).incSp with
    | none =>
      exact .inr ⟨.inr (.inr ⟨d, hd, State.incSp_eq_none.1 hs⟩),
        by simp [execPop, h, hs, State.orOutOfBounds]⟩
    | some t => exact .inl ⟨d, t, hpc, hd, hs, by simp [execPop, h, hs, State.orOutOfBounds]⟩

theorem execCall_cases :
    (∃ (r : RegIndex) (t : State), s.pc.toNat + 2 ≤ 255 ∧ a.toNat = r ∧ s.decSp = some t ∧
      execCall a s =
        .next ((t.writeByte t.sp (BitVec.ofNat 8 (s.pc.toNat + 2))).jumpTo (t.reg r))) ∨
    ((255 < s.pc.toNat + 2 ∨ 7 < a.toNat ∨ s.sp.toNat = 0) ∧
      execCall a s = .next (s.raise (.outOfBounds s.pc))) := by
  cases h : s.operandReg a with
  | none =>
    refine .inr ⟨?_, by simp [execCall, h, State.orOutOfBounds]⟩
    have := State.operandReg_eq_none.1 h
    omega
  | some r =>
    obtain ⟨hpc, hr⟩ := State.operandReg_eq_some.1 h
    cases ha : s.returnAddress with
    | none =>
      exact .inr ⟨.inl (State.returnAddress_eq_none.1 ha), by simp [execCall, h, ha, State.orOutOfBounds]⟩
    | some v =>
      obtain ⟨hpc2, rfl⟩ := State.returnAddress_eq_some.1 ha
      cases hs : s.decSp with
      | none =>
        exact .inr ⟨.inr (.inr (State.decSp_eq_none.1 hs)),
          by simp [execCall, h, ha, hs, State.orOutOfBounds]⟩
      | some t => exact .inl ⟨r, t, hpc2, hr, rfl, by simp [execCall, h, ha, hs, State.orOutOfBounds]⟩

theorem execRet_cases :
    (∃ t : State, s.incSp = some t ∧ execRet s = .next (t.jumpTo (s.readByte s.sp))) ∨
    (s.sp.toNat = 255 ∧ execRet s = .next (s.raise (.outOfBounds s.pc))) := by
  cases hs : s.incSp with
  | none => exact .inr ⟨State.incSp_eq_none.1 hs, by simp [execRet, hs, State.orOutOfBounds]⟩
  | some t => exact .inl ⟨t, rfl, by simp [execRet, hs, State.orOutOfBounds]⟩

theorem execJmp_cases :
    (∃ r : RegIndex, s.pc.toNat + 1 ≤ 255 ∧ a.toNat = r ∧ execJmp a s = .next (s.jumpTo (s.reg r))) ∨
    ((255 < s.pc.toNat + 1 ∨ 7 < a.toNat) ∧ execJmp a s = .next (s.raise (.outOfBounds s.pc))) := by
  cases h : s.jumpReg a with
  | none => exact .inr ⟨State.jumpReg_eq_none.1 h, by simp [execJmp, h, State.orOutOfBounds]⟩
  | some t =>
    obtain ⟨r, hpc, hr, rfl⟩ := State.jumpReg_eq_some.1 h
    exact .inl ⟨r, hpc, hr, by simp [execJmp, h, State.orOutOfBounds]⟩

/-- A conditional jump: taken it is a JMP, not taken it advances the pc by 2 and cannot fault. -/
theorem State.branch_cases (taken : Bool) :
    (taken = true ∧ s.orOutOfBounds (s.branch taken a) = execJmp a s) ∨
    (taken = false ∧ s.orOutOfBounds (s.branch taken a) = .next (s.advance 2)) := by
  cases taken with
  | true => exact .inl ⟨rfl, rfl⟩
  | false => exact .inr ⟨rfl, rfl⟩

theorem execJeq_cases :
    (Flags.equalSet s.fl = true ∧ execJeq a s = execJmp a s) ∨
    (Flags.equalSet s.fl = false ∧ execJeq a s = .next (s.advance 2)) :=
  s.branch_cases a (Flags.equalSet s.fl)

theorem execJne_cases :
    (Flags.equalSet s.fl = false ∧ execJne a s = execJmp a s) ∨
    (Flags.equalSet s.fl = true ∧ execJne a s = .next (s.advance 2)) := by
  simpa [execJne] using s.branch_cases a (!Flags.equalSet s.fl)

/-- Every instruction answers a next state: no instruction of this hardware stops the machine by a fault or a
refusal of the model. -/
theorem exec_next (i : Instr) : ∃ t, exec i s = .next t := by
  cases i <;> exact ⟨_, rfl⟩

end Sys2Proof.Machine
end

