-- ==== Sys2Proof/Laws/Effect.lean ====
section
/-! SUPPORT. The inversion of `exec`: the one relation that says what each instruction can do to a state, guards
included. A frame or an invariant takes `exec_effect` apart by cases and unfolds no meaning. -/

namespace Sys2Proof.Machine

/-- `Effect s i t`: instruction `i` may take `s` to `t`. -/
inductive Effect (s : State) : Instr → State → Prop where
  | nop : Effect s .nop (s.advance 1)
  | hlt : Effect s .hlt s.halt
  | ldi (a b : Byte) (d : RegIndex) : s.pc.toNat + 2 ≤ 255 → a.toNat = d →
      Effect s (.ldi a b) ((s.setReg d b).advance 3)
  | prn (a : Byte) (r : RegIndex) : s.pc.toNat + 1 ≤ 255 → a.toNat = r →
      Effect s (.prn a) ((s.emit (s.reg r)).advance 2)
  | add (a b : Byte) (d r : RegIndex) : s.pc.toNat + 2 ≤ 255 → a.toNat = d → b.toNat = r →
      Effect s (.add a b) ((s.setReg d (BitVec.ofNat 8 ((s.reg d).toNat + (s.reg r).toNat))).advance 3)
  | mul (a b : Byte) (d r : RegIndex) : s.pc.toNat + 2 ≤ 255 → a.toNat = d → b.toNat = r →
      Effect s (.mul a b) ((s.setReg d (BitVec.ofNat 8 ((s.reg d).toNat * (s.reg r).toNat))).advance 3)
  | cmp (a b : Byte) (d r : RegIndex) : s.pc.toNat + 2 ≤ 255 → a.toNat = d → b.toNat = r →
      Effect s (.cmp a b) ((s.setFlags (Flags.compare (s.reg d) (s.reg r))).advance 3)
  | push (a : Byte) (r : RegIndex) (u : State) : s.pc.toNat + 1 ≤ 255 → a.toNat = r → s.decSp = some u →
      Effect s (.push a) ((u.writeByte u.sp (u.reg r)).advance 2)
  | pop (a : Byte) (d : RegIndex) (u : State) : s.pc.toNat + 1 ≤ 255 → a.toNat = d →
      (s.setReg d (s.readByte s.sp)).incSp = some u → Effect s (.pop a) (u.advance 2)
  | call (a : Byte) (r : RegIndex) (u : State) : s.pc.toNat + 2 ≤ 255 → a.toNat = r → s.decSp = some u →
      Effect s (.call a) ((u.writeByte u.sp (BitVec.ofNat 8 (s.pc.toNat + 2))).jumpTo (u.reg r))
  | ret (u : State) : s.incSp = some u → Effect s .ret (u.jumpTo (s.readByte s.sp))
  | jmp (a : Byte) (r : RegIndex) : s.pc.toNat + 1 ≤ 255 → a.toNat = r →
      Effect s (.jmp a) (s.jumpTo (s.reg r))
  | jeqTaken (a : Byte) (r : RegIndex) : Flags.equalSet s.fl = true → s.pc.toNat + 1 ≤ 255 → a.toNat = r →
      Effect s (.jeq a) (s.jumpTo (s.reg r))
  | jeqNot (a : Byte) : Flags.equalSet s.fl = false → Effect s (.jeq a) (s.advance 2)
  | jneTaken (a : Byte) (r : RegIndex) : Flags.equalSet s.fl = false → s.pc.toNat + 1 ≤ 255 → a.toNat = r →
      Effect s (.jne a) (s.jumpTo (s.reg r))
  | jneNot (a : Byte) : Flags.equalSet s.fl = true → Effect s (.jne a) (s.advance 2)
  | fault (i : Instr) : i ≠ .nop → i ≠ .hlt → Effect s i (s.raise (.outOfBounds s.pc))

/-- What an instruction answers is one of its effects. -/
theorem exec_effect {i : Instr} {s t : State} (h : exec i s = .next t) : Effect s i t := by
  have key : ∀ {u : State}, exec i s = .next u → u = t := fun hu => by
    rw [hu] at h; exact Host.Outcome.next.inj h
  cases i with
  | nop => exact key rfl ▸ .nop
  | hlt => exact key rfl ▸ .hlt
  | ldi a b =>
    rcases execLdi_cases a b s with ⟨d, hpc, hd, he⟩ | ⟨-, he⟩
    · exact key he ▸ .ldi a b d hpc hd
    · exact key he ▸ .fault _ nofun nofun
  | prn a =>
    rcases execPrn_cases a s with ⟨r, hpc, hr, he⟩ | ⟨-, he⟩
    · exact key he ▸ .prn a r hpc hr
    · exact key he ▸ .fault _ nofun nofun
  | add a b =>
    rcases aluInstruction_cases a b s .add with ⟨d, r, hpc, hd, hr, he⟩ | ⟨-, he⟩
    · exact key he ▸ .add a b d r hpc hd hr
    · exact key he ▸ .fault _ nofun nofun
  | mul a b =>
    rcases aluInstruction_cases a b s .mul with ⟨d, r, hpc, hd, hr, he⟩ | ⟨-, he⟩
    · exact key he ▸ .mul a b d r hpc hd hr
    · exact key he ▸ .fault _ nofun nofun
  | cmp a b =>
    rcases aluInstruction_cases a b s .cmp with ⟨d, r, hpc, hd, hr, he⟩ | ⟨-, he⟩
    · exact key he ▸ .cmp a b d r hpc hd hr
    · exact key he ▸ .fault _ nofun nofun
  | push a =>
    rcases execPush_cases a s with ⟨r, u, hpc, hr, hu, he⟩ | ⟨-, he⟩
    · exact key he ▸ .push a r u hpc hr hu
    · exact key he ▸ .fault _ nofun nofun
  | pop a =>
    rcases execPop_cases a s with ⟨d, u, hpc, hd, hu, he⟩ | ⟨-, he⟩
    · exact key he ▸ .pop a d u hpc hd hu
    · exact key he ▸ .fault _ nofun nofun
  | call a =>
    rcases execCall_cases a s with ⟨r, u, hpc, hr, hu, he⟩ | ⟨-, he⟩
    · exact key he ▸ .call a r u hpc hr hu
    · exact key he ▸ .fault _ nofun nofun
  | ret =>
    rcases execRet_cases s with ⟨u, hu, he⟩ | ⟨-, he⟩
    · exact key he ▸ .ret u hu
    · exact key he ▸ .fault _ nofun nofun
  | jmp a =>
    rcases execJmp_cases a s with ⟨r, hpc, hr, he⟩ | ⟨-, he⟩
    · exact key he ▸ .jmp a r hpc hr
    · exact key he ▸ .fault _ nofun nofun
  | jeq a =>
    rcases execJeq_cases a s with ⟨hf, he⟩ | ⟨hf, he⟩
    · rcases execJmp_cases a s with ⟨r, hpc, hr, hj⟩ | ⟨-, hj⟩
      · exact key (he.trans hj) ▸ .jeqTaken a r hf hpc hr
      · exact key (he.trans hj) ▸ .fault _ nofun nofun
    · exact key he ▸ .jeqNot a hf
  | jne a =>
    rcases execJne_cases a s with ⟨hf, he⟩ | ⟨hf, he⟩
    · rcases execJmp_cases a s with ⟨r, hpc, hr, hj⟩ | ⟨-, hj⟩
      · exact key (he.trans hj) ▸ .jneTaken a r hf hpc hr
      · exact key (he.trans hj) ▸ .fault _ nofun nofun
    · exact key he ▸ .jneNot a hf

end Sys2Proof.Machine
end

