-- ==== Sys2Proof/Laws/PerInstr.lean ====
section
/-! SUPPORT. The layout of every instruction, made per instruction (30_encoding.md R80, R81): under any opcode map
its bytes begin with its row's opcode byte and are as many as its row's length. -/

namespace Sys2Proof.Laws.Layout

/-- The opcode byte stands first and the length is the row's. -/
def Statement (i : Instr) : Prop :=
  ∀ m : OpcodeMap, (encodeWith m i).head? = some (m i.op) ∧ (encodeWith m i).length = i.op.length

theorem nop : Statement .nop := fun _ => ⟨rfl, rfl⟩
theorem ldi (a b : Byte) : Statement (.ldi a b) := fun _ => ⟨rfl, rfl⟩
theorem prn (a : Byte) : Statement (.prn a) := fun _ => ⟨rfl, rfl⟩
theorem hlt : Statement .hlt := fun _ => ⟨rfl, rfl⟩
theorem add (a b : Byte) : Statement (.add a b) := fun _ => ⟨rfl, rfl⟩
theorem mul (a b : Byte) : Statement (.mul a b) := fun _ => ⟨rfl, rfl⟩
theorem cmp (a b : Byte) : Statement (.cmp a b) := fun _ => ⟨rfl, rfl⟩
theorem push (a : Byte) : Statement (.push a) := fun _ => ⟨rfl, rfl⟩
theorem pop (a : Byte) : Statement (.pop a) := fun _ => ⟨rfl, rfl⟩
theorem call (a : Byte) : Statement (.call a) := fun _ => ⟨rfl, rfl⟩
theorem ret : Statement .ret := fun _ => ⟨rfl, rfl⟩
theorem jmp (a : Byte) : Statement (.jmp a) := fun _ => ⟨rfl, rfl⟩
theorem jeq (a : Byte) : Statement (.jeq a) := fun _ => ⟨rfl, rfl⟩
theorem jne (a : Byte) : Statement (.jne a) := fun _ => ⟨rfl, rfl⟩

end Sys2Proof.Laws.Layout
end

