-- ==== Sys2Proof/Laws/Step.lean ====
section
/-! SUPPORT. Once, everything a cycle can do: stay Halted, fail the PC check, fail the decode, or execute the
instruction of the row its opcode byte names. -/

namespace Sys2Proof.Machine

variable (s : State)

/-- The opcode byte of a cycle whose pc is in range. -/
def State.opcodeByte : Byte := Memory.read s.mem s.pc.toNat

/-- The eager operand bytes of a cycle, with 0 where the address exceeds 255 (20_memory.md R67). -/
def State.eagerByte (k : Nat) : Byte := (s.byteAt (s.pc.toNat + k)).getD 0

theorem State.fetchDecode_cases :
    (255 < s.pc.toNat ∧ s.fetchDecode = .error (.outOfBounds s.pc)) ∨
    (s.pc.toNat ≤ 255 ∧ Op.ofByte opc s.opcodeByte = none ∧
      s.fetchDecode = .error (.unsupportedOpcode s.pc s.opcodeByte)) ∨
    (∃ o, s.pc.toNat ≤ 255 ∧ Op.ofByte opc s.opcodeByte = some o ∧
      s.fetchDecode = .ok (o.instr (s.eagerByte 1) (s.eagerByte 2))) := by
  by_cases hpc : s.pc.toNat > 255
  · exact .inl ⟨hpc, by simp [State.fetchDecode, hpc]⟩
  · have hle : s.pc.toNat ≤ 255 := by omega
    have hbytes : s.fetchBytes 0 = [s.opcodeByte, s.eagerByte 1, s.eagerByte 2] := by
      simp [State.fetchBytes, State.byteAt_of_le hle, State.opcodeByte, State.eagerByte]
    refine .inr ?_
    rcases decodeWith_three (m := opc) s.opcodeByte (s.eagerByte 1) (s.eagerByte 2) with
      ⟨hn, hd⟩ | ⟨o, rest, ho, hd⟩
    · exact .inl ⟨hle, hn, by unfold State.fetchDecode; rw [if_neg hpc, hbytes, decode, hd]; rfl⟩
    · exact .inr ⟨o, hle, ho, by unfold State.fetchDecode; rw [if_neg hpc, hbytes, decode, hd]⟩

theorem step_cases :
    (s.run = .halted ∧ step s = .next s) ∨
    (s.run = .running ∧ 255 < s.pc.toNat ∧ step s = .next (s.raise (.outOfBounds s.pc))) ∨
    (s.run = .running ∧ s.pc.toNat ≤ 255 ∧ Op.ofByte opc s.opcodeByte = none ∧
      step s = .next (s.raise (.unsupportedOpcode s.pc s.opcodeByte))) ∨
    (∃ o, s.run = .running ∧ s.pc.toNat ≤ 255 ∧ Op.ofByte opc s.opcodeByte = some o ∧
      step s = exec (o.instr (s.eagerByte 1) (s.eagerByte 2)) s) := by
  cases hr : s.run with
  | halted => exact .inl ⟨rfl, by simp [step, hr, State.idle]⟩
  | running =>
    refine .inr ?_
    rcases s.fetchDecode_cases with ⟨hpc, hf⟩ | ⟨hpc, ho, hf⟩ | ⟨o, hpc, ho, hf⟩
    · exact .inl ⟨rfl, hpc, by simp [step, hr, hf]⟩
    · exact .inr (.inl ⟨rfl, hpc, ho, by simp [step, hr, hf]⟩)
    · exact .inr (.inr ⟨o, rfl, hpc, ho, by simp [step, hr, hf]⟩)

end Sys2Proof.Machine
end

