-- ==== Sys2Proof/Laws/Run.lean ====
section
/-! SUPPORT. Runs of several cycles: `runFrom` one cycle at a time, and the totality of a cycle. -/

namespace Sys2Proof.Machine

/-- Every cycle answers a next state: no fault and no refusal of the model's own (40_loop_and_system.md R122). -/
theorem step_next (s : State) : ∃ t, step s = .next t := by
  rcases step_cases s with ⟨_, h⟩ | ⟨_, _, h⟩ | ⟨_, _, _, h⟩ | ⟨o, _, _, _, h⟩
  · exact ⟨_, h⟩
  · exact ⟨_, h⟩
  · exact ⟨_, h⟩
  · exact h ▸ exec_next s _

theorem runFrom_zero (s : State) : runFrom 0 s = .next s := rfl

/-- A run of `k + 1` cycles is one cycle and then a run of `k`. -/
theorem runFrom_succ {s t : State} (k : Nat) (h : step s = .next t) : runFrom (k + 1) s = runFrom k t := by
  have h' : Sys2Proof.core.step s = .next t := h
  simp only [runFrom, Host.Core.run, h']
  rfl

/-- Every run of any length answers a next state. -/
theorem runFrom_next (k : Nat) : ∀ s : State, ∃ t, runFrom k s = .next t := by
  induction k with
  | zero => exact fun s => ⟨s, runFrom_zero s⟩
  | succ k ih =>
    intro s
    obtain ⟨t, ht⟩ := step_next s
    rw [runFrom_succ k ht]
    exact ih t

/-- A run of `k + m` cycles is a run of `k` and then one of `m`. -/
theorem runFrom_add {k : Nat} {t : State} (m : Nat) :
    ∀ {s : State}, runFrom k s = .next t → runFrom (k + m) s = runFrom m t := by
  induction k with
  | zero => intro s h; rw [Nat.zero_add]; cases h; rfl
  | succ k ih =>
    intro s h
    obtain ⟨u, hu⟩ := step_next s
    rw [Nat.succ_add, runFrom_succ _ hu]
    rw [runFrom_succ k hu] at h
    exact ih h

end Sys2Proof.Machine
end

