-- ==== Sys2Proof/Tests/Slice0.lean ====
section
/-! SUPPORT. The model's own tests: decoding of written-out words, the WellFormed smoke, single steps taken from the
vectors of spec/95_test_vectors.md, and for every statement with hypotheses a state and operands that meet them. -/

open Sys2Proof Sys2Proof.Machine Sys2Proof.Claims

namespace Sys2Proof.Tests

/-- A Running core at `pc` with the given bytes there, FL = 0 and the reset values elsewhere. -/
def cpu (pc : Pc) (bytes : List Byte) : State :=
  ({ State.resetWith 0 with pc := pc } : State).placeBytes pc.toNat bytes

/-- What one cycle leaves. -/
def after (s : State) : Option State :=
  match step s with
  | .next t => some t
  | .fault _ => none
  | .refused _ => none

/-- What the host can see of a cycle's end: run state, fault record and pc. -/
def ending (s : State) : Option (RunState × FaultRecord × Pc) :=
  (after s).map fun t => (t.run, t.err, t.pc)

/-! ### Decoding: a word of every row, its bits from the table of 30_encoding.md R84, R92 -/

theorem test_decode_nop : decode [0b00000000] = .ok (.nop, []) := rfl
theorem test_decode_ldi : decode [0b10000010, 0b00000000, 0b00001000] = .ok (.ldi 0 8, []) := rfl
theorem test_decode_prn : decode [0b01000111, 0b00000000] = .ok (.prn 0, []) := rfl
theorem test_decode_hlt : decode [0b00000001] = .ok (.hlt, []) := rfl
theorem test_decode_add : decode [0b10100000, 0b00000000, 0b00000001] = .ok (.add 0 1, []) := rfl
theorem test_decode_mul : decode [0b10100010, 0b00000011, 0b00000100] = .ok (.mul 3 4, []) := rfl
theorem test_decode_cmp : decode [0b10100111, 0b00000000, 0b00000010] = .ok (.cmp 0 2, []) := rfl
theorem test_decode_push : decode [0b01000101, 0b00000110] = .ok (.push 6, []) := rfl
theorem test_decode_pop : decode [0b01000110, 0b00000001] = .ok (.pop 1, []) := rfl
theorem test_decode_call : decode [0b01010000, 0b00000001] = .ok (.call 1, []) := rfl
theorem test_decode_ret : decode [0b00010001] = .ok (.ret, []) := rfl
theorem test_decode_jmp : decode [0b01010100, 0b00000011] = .ok (.jmp 3, []) := rfl
theorem test_decode_jeq : decode [0b01010101, 0b00000010] = .ok (.jeq 2, []) := rfl
theorem test_decode_jne : decode [0b01010110, 0b00000111] = .ok (.jne 7, []) := rfl

/-- R88: AND, DIV, INC, DEC are rejected, with no operand byte needed; a list that ends early is rejected by name. -/
theorem test_decode_rejects :
    decode [0xA8] = .error (.unsupportedOpcode 0xA8) ∧ decode [0xA3] = .error (.unsupportedOpcode 0xA3) ∧
    decode [0x65] = .error (.unsupportedOpcode 0x65) ∧ decode [0x66] = .error (.unsupportedOpcode 0x66) ∧
    decode [0x82, 0x00] = .error (.missingOperand .ldi) ∧ decode [] = .error .noBytes := ⟨rfl, rfl, rfl, rfl, rfl, rfl⟩

/-- spec/opcode_table.json numbers bits from the first byte's least significant bit. -/
theorem test_decodeTableWord :
    decodeTableWord 24 0x080082 = some (.ldi 0 8) ∧ decodeTableWord 16 0x0247 = some (.prn 2) ∧
    decodeTableWord 8 0x11 = some .ret ∧ decodeTableWord 8 0xA8 = none := by decide

/-- R92: the source's program as bytes. -/
theorem test_encode_example :
    [Instr.ldi 0 8, .ldi 1 9, .add 0 1, .prn 0, .hlt].flatMap encode =
      [0x82, 0x00, 0x08, 0x82, 0x01, 0x09, 0xA0, 0x00, 0x01, 0x47, 0x00, 0x01] := by decide

/-- R90: the assembler text. -/
theorem test_asm : (Instr.ldi 0 8).asm = "LDI R0,8" ∧ (Instr.add 0 1).asm = "ADD R0,R1" ∧ Instr.hlt.asm = "HLT" := by
  decide

/-! ### WellFormed: the check refuses an ill-formed term, operand by operand -/

theorem test_wf_refuses :
    (Instr.ldi 8 0).wf = false ∧ (Instr.prn 8).wf = false ∧ (Instr.add 8 0).wf = false ∧
    (Instr.add 0 8).wf = false ∧ (Instr.mul 8 0).wf = false ∧ (Instr.mul 0 8).wf = false ∧
    (Instr.cmp 8 0).wf = false ∧ (Instr.cmp 0 255).wf = false ∧ (Instr.push 8).wf = false ∧
    (Instr.pop 8).wf = false ∧ (Instr.call 8).wf = false ∧ (Instr.jmp 8).wf = false ∧
    (Instr.jeq 8).wf = false ∧ (Instr.jne 255).wf = false := by decide

theorem test_wf_accepts :
    (Instr.ldi 7 255).wf = true ∧ (Instr.add 7 0).wf = true ∧ (Instr.push 7).wf = true ∧ Instr.nop.wf = true ∧
    Instr.hlt.wf = true ∧ Instr.ret.wf = true := by decide

/-! ### Single cycles (the vector of 95_test_vectors.md section 2 stands before each) -/

/-- S1. -/
theorem test_nop : ending (cpu 0x20 [0x00]) = some (.running, .none, 0x21) := by decide
/-- S2. -/
theorem test_nop_at_255 : ending (cpu 0xFF [0x00]) = some (.running, .none, 0x100) := by decide
/-- S3. -/
theorem test_pc_check : ending (cpu 0x100 []) = some (.halted, .outOfBounds 0x100, 0x100) := by decide
/-- S4. -/
theorem test_hlt : ending (cpu 0x0B [0x01]) = some (.halted, .none, 0x0B) := by decide
/-- S5. -/
theorem test_hlt_at_255 : ending (cpu 0xFF [0x01]) = some (.halted, .none, 0xFF) := by decide
/-- S6. -/
theorem test_unsupported : ending (cpu 5 [0xA8, 0, 1]) = some (.halted, .unsupportedOpcode 5 0xA8, 5) := by decide
/-- S8. -/
theorem test_unsupported_at_255 :
    ending (cpu 0xFF [0xFF]) = some (.halted, .unsupportedOpcode 0xFF 0xFF, 0xFF) := by decide
/-- L1. -/
theorem test_ldi : (after (cpu 0x10 [0x82, 3, 0xFF])).map (fun t => (t.reg 3, t.pc)) = some (0xFF, 0x13) := by
  decide
/-- L5. -/
theorem test_ldi_at_254 : ending (cpu 0xFE [0x82, 0]) = some (.halted, .outOfBounds 0xFE, 0xFE) := by decide
/-- L9. -/
theorem test_prn : (after (cpu 0 [0x47, 7])).map (fun t => (t.out, t.pc)) = some ([0xF4], 2) := by decide
/-- L8. -/
theorem test_prn_no_register :
    (after (cpu 0 [0x47, 9])).map (fun t => (t.out, t.err)) = some ([], .outOfBounds 0) := by decide
/-- A3. -/
theorem test_add :
    (after (((cpu 0 [0xA0, 0, 1]).setReg 0 0xC8).setReg 1 0x64)).map (fun t => (t.reg 0, t.reg 1, t.pc)) =
      some (0x2C, 0x64, 3) := by decide
/-- A6. -/
theorem test_add_wraps_sp :
    (after ((cpu 0 [0xA0, 7, 0]).setReg 0 0x10)).map (fun t => (t.sp, t.err)) = some (0x04, .none) := by decide
/-- M5. -/
theorem test_mul :
    (after (((cpu 0 [0xA2, 0, 1]).setReg 0 0x64).setReg 1 0xC8)).map (fun t => (t.reg 0, t.reg 1)) =
      some (0x20, 0xC8) := by decide
/-- M4. -/
theorem test_mul_same_register :
    (after ((cpu 0 [0xA2, 3, 3]).setReg 3 0x11)).map (fun t => t.reg 3) = some 0x21 := by decide
/-- C2. -/
theorem test_cmp_unsigned :
    (after ((cpu 0 [0xA7, 0, 1]).setReg 1 0xFF)).map (fun t => (t.fl, t.pc)) = some (0x04, 3) := by decide
/-- C3, with the start value of FL from C6: bits 7:3 are cleared. -/
theorem test_cmp_clears_unused_bits :
    (after (((cpu 0 [0xA7, 0, 1]).setReg 0 0xFF).setFlags 0xFE)).map (fun t => t.fl) = some 0x02 := by decide
/-- K2. -/
theorem test_push_sp :
    (after (cpu 0 [0x45, 7])).map (fun t => (t.sp, t.readByte 0xF3, t.pc)) = some (0xF3, 0xF3, 2) := by decide
/-- K6. -/
theorem test_push_over_itself :
    (after (((cpu 0x20 [0x45, 0]).setReg 7 0x21).setReg 0 1)).map (fun t => (t.sp, t.readByte 0x20, t.pc)) =
      some (0x20, 0x01, 0x22) := by decide
/-- K7. -/
theorem test_pop :
    (after (((cpu 0 [0x46, 1]).setReg 7 0xF3).writeByte 0xF3 0xC8)).map
      (fun t => (t.reg 1, t.sp, t.readByte 0xF3)) = some (0xC8, 0xF4, 0xC8) := by decide
/-- K9. -/
theorem test_pop_sp :
    (after (((cpu 0 [0x46, 7]).setReg 7 0xF3).writeByte 0xF3 0x40)).map (fun t => (t.sp, t.pc)) =
      some (0x41, 2) := by decide
/-- T2. -/
theorem test_call_sp :
    (after (cpu 6 [0x50, 7])).map (fun t => (t.sp, t.readByte 0xF3, t.pc)) = some (0xF3, 0x08, 0xF3) := by decide
/-- T4. -/
theorem test_call_at_253 :
    (after ((cpu 0xFD [0x50, 0]).setReg 0 5)).map (fun t => (t.sp, t.readByte 0xF3, t.pc)) =
      some (0xF3, 0xFF, 0x05) := by decide
/-- T10. -/
theorem test_ret_at_255 :
    (after (((cpu 0xFF [0x11]).setReg 7 0xF3).writeByte 0xF3 0x08)).map
      (fun t => (t.pc, t.sp, t.readByte 0xF3)) = some (0x08, 0xF4, 0x08) := by decide
/-- T9. -/
theorem test_ret_sp_255 :
    ending ((cpu 0x0F [0x11]).setReg 7 0xFF) = some (.halted, .outOfBounds 0x0F, 0x0F) := by decide
/-- T11. -/
theorem test_jmp : ending ((cpu 0x14 [0x54, 3]).setReg 3 0x0C) = some (.running, .none, 0x0C) := by decide
/-- T12. -/
theorem test_jmp_no_register : ending (cpu 0x14 [0x54, 9]) = some (.halted, .outOfBounds 0x14, 0x14) := by decide
/-- T26. -/
theorem test_jeq : ending (((cpu 0x10 [0x55, 2]).setReg 2 0x30).setFlags 0xFF) = some (.running, .none, 0x30) := by
  decide
/-- T17. -/
theorem test_jeq_not_taken : ending ((cpu 0x10 [0x55, 9]).setFlags 0x02) = some (.running, .none, 0x12) := by decide
/-- T24. -/
theorem test_jne : ending (((cpu 0x14 [0x56, 3]).setReg 3 0x0C).setFlags 0xFE) = some (.running, .none, 0x0C) := by
  decide
/-- T25. -/
theorem test_jne_not_taken :
    ending (((cpu 0x14 [0x56, 3]).setReg 3 0x0C).setFlags 0xFF) = some (.running, .none, 0x16) := by decide

/-- `withFetchWord` puts the table's word where the next cycle fetches: LDI R0,8 is the first instruction after
reset. -/
theorem test_withFetchWord :
    (after (State.reset.withFetchWord 24 0x080082)).map (fun t => (t.reg 0, t.pc)) = some (8, 3) := by decide

/-- The same for JEQ R2, whose outcome depends on the open FL_RESET: the cycle is its execution. -/
theorem test_withFetchWord_jeq :
    step (State.reset.withFetchWord 16 0x0255) = exec (.jeq 2) (State.reset.withFetchWord 16 0x0255) := rfl

/-! ### Witnesses: for every statement with hypotheses, a state and operands that meet all of them, clause by clause -/

theorem witness_StepKeepsInvariant :
    (State.resetWith 0xA5).Inv 0xA5 ∧ ∃ t, step (State.resetWith 0xA5) = .next t :=
  ⟨⟨rfl, by decide, .inl rfl, rfl⟩, _, rfl⟩

/-- Programs of exactly 256 and of 257 bytes, the last address of the first, and a one-byte program with the first
address after it. -/
theorem witness_LoadPlacesProgram :
    (∃ program : List Byte, program.length = 256 ∧ (255 : Byte).toNat < program.length) ∧
    (∃ program : List Byte, program.length = 257) ∧ ([1] : List Byte).length ≤ (1 : Byte).toNat :=
  ⟨⟨List.replicate 256 0xFF, List.length_replicate, by rw [List.length_replicate]; decide⟩,
    ⟨List.replicate 257 0xFF, List.length_replicate⟩, by decide⟩

theorem witness_DebugReadReportsNextFetch :
    (255 : Byte).toNat = (cpu 255 []).pc.toNat ∧ (255 : Byte).toNat = (cpu 254 []).pc.toNat + 1 ∧
    (255 : Byte).toNat = (cpu 253 []).pc.toNat + 2 ∧ 255 < (cpu 256 []).pc.toNat ∧
    255 < (cpu 255 []).pc.toNat + 1 ∧ 255 < (cpu 254 []).pc.toNat + 2 := by decide

theorem witness_ExitStatusContract :
    (cpu 0 []).halt.status.exitStatus = some 0 ∧
    ((cpu 5 []).raise (.unsupportedOpcode 5 0xA8)).status.exitStatus = some 1 ∧
    ((cpu 256 []).raise (.outOfBounds 256)).status.exitStatus = some 2 ∧
    (cpu 0 []).status.exitStatus = none := by decide

theorem witness_StatusIsFinalOnceHalted :
    ((cpu 0 []).halt.run = .halted ∧ ∃ t, runFrom 3 (cpu 0 []).halt = .next t) ∧
    (∃ t, (cpu 256 []).err = .none ∧ step (cpu 256 []) = .next t ∧ t.err ≠ .none) :=
  ⟨⟨rfl, _, rfl⟩, _, rfl, rfl, by decide⟩

/-- The longest program a load takes, a start, a cycle, and a move of each kind that answers next. -/
theorem witness_HostMovesOnlyInTheirPhase :
    (∃ program : List Byte, (Session.mk .afterReset (cpu 0 [])).phase = .afterReset ∧ program.length = 256) ∧
    (Session.mk .loaded (cpu 0 [])).phase = .loaded ∧ (Session.mk .started (cpu 0 [])).phase = .started ∧
    (∃ y, (Session.mk .started (cpu 9 [])).move (.reset 0x80) = .next y) ∧
    (∃ y, (Session.mk .afterReset (cpu 0 [])).move (.load [1]) = .next y) ∧
    (∃ y, (Session.mk .loaded (cpu 0 [])).move .start = .next y) ∧
    (∃ y, (Session.mk .started (cpu 0 [])).move .cycle = .next y) :=
  ⟨⟨List.replicate 256 0xFF, rfl, List.length_replicate⟩, rfl, rfl, ⟨_, rfl⟩, ⟨_, rfl⟩, ⟨_, rfl⟩, _, rfl⟩

/-- Two opcode maps the source admits: R84's, and R84's with the bytes of RET and HLT exchanged. -/
theorem witness_DecodeOfEncode :
    opc.Valid ∧ OpcodeMap.Valid fun o => opc (match o with | .ret => .hlt | .hlt => .ret | o => o) :=
  ⟨opc_valid, rfl, by intro o o'; cases o <;> cases o' <;> decide⟩

theorem witness_EncodeOfDecode : opc.Valid ∧ decodeWith opc [0x45, 6, 9] = .ok (.push 6, [9]) := ⟨opc_valid, rfl⟩

/-- Both sides of the equivalence occur. -/
theorem witness_LegalOpcodeBytes :
    decode [0xA8] = .error (.unsupportedOpcode 0xA8) ∧
    (0xA7 : Byte).toNat ∈ [0x00, 0x01, 0x11, 0x45, 0x46, 0x47, 0x50, 0x54, 0x55, 0x56, 0x82, 0xA0, 0xA2, 0xA7] :=
  ⟨rfl, by decide⟩

/-- Two states with a legal opcode byte in common (at addresses 255 and 0), and two with an unsupported one. -/
theorem witness_DecodeReadsOnlyTheOpcode :
    ((cpu 255 [0x82]).pc.toNat ≤ 255 ∧ (cpu 0 [0x82, 7, 7]).pc.toNat ≤ 255 ∧
      (cpu 255 [0x82]).byteAt (cpu 255 [0x82]).pc.toNat = some 0x82 ∧
      (cpu 0 [0x82, 7, 7]).byteAt (cpu 0 [0x82, 7, 7]).pc.toNat = some 0x82) ∧
    ((cpu 255 [0xFF]).byteAt (cpu 255 [0xFF]).pc.toNat = some 0xFF ∧
      (cpu 0 [0xFF]).byteAt (cpu 0 [0xFF]).pc.toNat = some 0xFF) := by decide

/-- In the middle of memory, and at 255, where one byte is all there is. -/
theorem witness_StepRunsDecodedInstruction :
    ((cpu 6 [0xA0, 0, 1]).run = .running ∧ (cpu 6 [0xA0, 0, 1]).pc.toNat ≤ 255 ∧
      decode ([6, 7, 8].filterMap (cpu 6 [0xA0, 0, 1]).byteAt) = .ok (.add 0 1, [])) ∧
    ((cpu 255 [0x11]).run = .running ∧ (cpu 255 [0x11]).pc.toNat ≤ 255 ∧
      decode ([255, 256, 257].filterMap (cpu 255 [0x11]).byteAt) = .ok (.ret, [])) :=
  ⟨⟨rfl, by decide, rfl⟩, rfl, by decide, rfl⟩

theorem witness_EagerBytesBeyondMemoryIgnored :
    (cpu 255 [0x45]).run = .running ∧ (cpu 255 [0x45]).pc.toNat ≤ 255 ∧
    decode ((cpu 255 [0x45]).fetchBytes 7) = .ok (.push 7, [7]) := ⟨rfl, by decide, rfl⟩

/-- pc 256; then an instruction of each length that ends at 255, and branches not taken at 254 and 255. -/
theorem witness_PcCheckFaults :
    ((cpu 256 []).run = .running ∧ (cpu 256 []).pc.toNat > 255) ∧
    (∃ t, OpcodeIs (cpu 255 [0]) .nop ∧ (255 + Op.nop.length = 256) ∧ step (cpu 255 [0]) = .next t ∧ t.err = .none) ∧
    (∃ t, OpcodeIs (cpu 254 [0x47]) .prn ∧ (254 + Op.prn.length = 256) ∧ step (cpu 254 [0x47]) = .next t ∧
      t.err = .none) ∧
    (∃ t, OpcodeIs (cpu 253 [0x82]) .ldi ∧ (253 + Op.ldi.length = 256) ∧ step (cpu 253 [0x82]) = .next t ∧
      t.err = .none) ∧
    (∃ t, OpcodeIs (cpu 255 [0x55]) .jeq ∧ Flags.equalSet (cpu 255 [0x55]).fl = false ∧
      step (cpu 255 [0x55]) = .next t ∧ t.err = .none) ∧
    (∃ t, OpcodeIs ((cpu 254 [0x56]).setFlags 1) .jne ∧ Flags.equalSet ((cpu 254 [0x56]).setFlags 1).fl = true ∧
      step ((cpu 254 [0x56]).setFlags 1) = .next t ∧ t.err = .none) :=
  ⟨by decide, ⟨_, rfl, rfl, rfl, rfl⟩, ⟨_, rfl, rfl, rfl, rfl⟩, ⟨_, rfl, rfl, rfl, rfl⟩, ⟨_, rfl, rfl, rfl, rfl⟩,
    _, rfl, rfl, rfl, rfl⟩

theorem witness_UnsupportedOpcodeHalts :
    (cpu 255 [0xFF]).run = .running ∧ (cpu 255 [0xFF]).byteAt 255 = some 0xFF ∧ ∀ o : Op, opc o ≠ 0xFF :=
  ⟨rfl, rfl, by intro o; cases o <;> decide⟩

theorem witness_HaltedIsTerminal :
    (cpu 0 []).halt.run = .halted ∧
    ∃ y, (Session.mk .started (cpu 0 []).halt).move .cycle = .next y ∧ ∀ fl, Move.cycle ≠ .reset fl :=
  ⟨rfl, _, rfl, fun _ => nofun⟩

/-- A run that ends at its first cycle, and the longer one. -/
theorem witness_RunHasOneResult :
    ∃ t r, runFrom 1 (cpu 0 [0x01]) = .next t ∧ t.run = .halted ∧ 1 ≤ 3 ∧ runFrom 3 (cpu 0 [0x01]) = .next t ∧
      t.result = some r ∧ (cpu 0 [0x01]).run = .running := ⟨_, _, rfl, rfl, by decide, rfl, rfl, rfl⟩

theorem witness_StepIsTotal : (cpu 0 []).run = .running ∧ (cpu 0 []).err = .none := by decide

theorem witness_FaultsArePrecise :
    (∃ t, (cpu 0 []).err = .none ∧ exec (.push 8) (cpu 0 []) = .next t ∧ t.err ≠ .none) ∧
    (∃ t, (cpu 0 [0xA8]).err = .none ∧ step (cpu 0 [0xA8]) = .next t ∧ t.err ≠ .none) :=
  ⟨⟨_, rfl, rfl, by decide⟩, _, rfl, rfl, by decide⟩

/-- A cycle without a fault, and one for each condition of R192: pc, operand_a and operand_b beyond 255, register
operands above 7, a push at SP = 0, a pop at SP = 255, a CALL at 254; and an unsupported opcode. -/
theorem witness_FaultsExactlyAsListed :
    ending (cpu 0 [0]) = some (.running, .none, 1) ∧
    ending (cpu 256 []) = some (.halted, .outOfBounds 256, 256) ∧
    ending (cpu 255 [0x47]) = some (.halted, .outOfBounds 255, 255) ∧
    ending (cpu 254 [0x82]) = some (.halted, .outOfBounds 254, 254) ∧
    ending (cpu 0 [0x54, 8]) = some (.halted, .outOfBounds 0, 0) := by decide

theorem witness_FaultsExactlyAsListed_more :
    ending (cpu 0 [0xA7, 0, 8]) = some (.halted, .outOfBounds 0, 0) ∧
    ending ((cpu 0 [0x45, 0]).setReg 7 0) = some (.halted, .outOfBounds 0, 0) ∧
    ending ((cpu 0 [0x46, 0]).setReg 7 255) = some (.halted, .outOfBounds 0, 0) ∧
    ending (cpu 254 [0x50, 0]) = some (.halted, .outOfBounds 254, 254) ∧
    ending (cpu 254 [0xA3]) = some (.halted, .unsupportedOpcode 254 0xA3, 254) := by decide

theorem witness_OnlyCmpWritesFlags :
    (∃ t, (∀ a b, Instr.add 0 1 ≠ .cmp a b) ∧ exec (.add 0 1) (cpu 0 []) = .next t) ∧
    (∃ t, ¬ OpcodeIs (cpu 0 [0xA0]) .cmp ∧ step (cpu 0 [0xA0]) = .next t) ∧
    (∃ t, (cpu 255 []).pc.toNat ≤ 255 ∧ exec .nop (cpu 255 []) = .next t) :=
  ⟨⟨_, fun _ _ => nofun, rfl⟩, ⟨_, (by decide : ¬ (cpu 0 [0xA0]).byteAt (cpu 0 [0xA0]).pc.toNat = some (opc .cmp)), rfl⟩,
    _, by decide, rfl⟩

theorem witness_StoreFreeFormsKeepMemory :
    ∃ t, ¬ Stores (.pop 0) ∧ exec (.pop 0) (cpu 0 []) = .next t := ⟨_, id, rfl⟩

/-- SP = 1, where the store goes to address 0, and SP = 0, where there is none. -/
theorem witness_PushCallStoreOneByte :
    (∃ t u, Stores (.push 0) ∧ exec (.push 0) ((cpu 0 []).setReg 7 1) = .next t ∧
      ((cpu 0 []).setReg 7 1).decSp = some u) ∧
    (∃ t, Stores (.call 0) ∧ exec (.call 0) ((cpu 0 []).setReg 7 0) = .next t ∧
      ((cpu 0 []).setReg 7 0).decSp = none) := ⟨⟨_, _, trivial, rfl, rfl⟩, _, trivial, rfl, rfl⟩

theorem witness_RegistersKeptButDestination :
    ∃ t, ¬ WritesReg 1 (.add 0 1) ∧ exec (.add 0 1) (cpu 0 []) = .next t :=
  ⟨_, (by decide : ¬ (0 : Byte).toNat = (1 : RegIndex)), rfl⟩

theorem witness_OutputOnlyGrowsByPrn :
    (∃ t, (∀ a, Instr.hlt ≠ .prn a) ∧ exec .hlt (cpu 0 []) = .next t) ∧
    (∃ t, exec (.prn 7) (cpu 0 []) = .next t) ∧ ∃ t, step (cpu 0 [0x47, 7]) = .next t :=
  ⟨⟨_, fun _ => nofun, rfl⟩, ⟨_, rfl⟩, _, rfl⟩

theorem witness_OnlyHltOrFaultHalts :
    ∃ t, Instr.jmp 0 ≠ .hlt ∧ exec (.jmp 0) (cpu 0 []) = .next t := ⟨_, nofun, rfl⟩

/-- PUSH over two memories, and a CALL at SP = 1 over two canonical ones. -/
theorem witness_OnlyPopRetReadData :
    (∃ t u, ¬ ReadsData (.push 0) ∧ exec (.push 0) (cpu 0 []) = .next t ∧
      exec (.push 0) { cpu 0 [] with mem := [(244, 9)] } = .next u) ∧
    (∃ t u v, Stores (.call 7) ∧ Memory.wf ((cpu 253 [0x50, 7]).setReg 7 1).mem = true ∧
      Memory.wf [(0, 9)] = true ∧ ((cpu 253 [0x50, 7]).setReg 7 1).decSp = some v ∧
      exec (.call 7) ((cpu 253 [0x50, 7]).setReg 7 1) = .next t ∧
      exec (.call 7) { (cpu 253 [0x50, 7]).setReg 7 1 with mem := [(0, 9)] } = .next u ∧ t.err = .none) :=
  ⟨⟨_, _, id, rfl, rfl⟩, _, _, _, trivial, rfl, rfl, rfl, rfl, rfl, rfl⟩

/-- A completed instruction, and one that faults. -/
theorem witness_PcUpdatePerInstruction :
    (∃ t, (cpu 255 []).pc.toNat ≤ 255 ∧ (cpu 255 []).err = .none ∧ exec .ret (cpu 255 []) = .next t ∧
      t.err = .none) ∧
    (∃ t, exec (.jmp 0) (cpu 255 []) = .next t ∧ t.err ≠ .none) :=
  ⟨⟨_, by decide, rfl, rfl, rfl⟩, _, rfl, by decide⟩

theorem witness_NopAdvancesByOne :
    (cpu 255 [0]).pc.toNat ≤ 255 ∧ (cpu 255 [0]).run = .running ∧
    (cpu 255 [0]).byteAt (cpu 255 [0]).pc.toNat = some 0 := by decide

/-- Completion at the last address with both operand bytes (253) and the largest register; the fault at 254, and for
the smallest byte that is no register. -/
theorem witness_LdiWritesImmediate :
    ((cpu 253 []).pc.toNat ≤ 253 ∧ (7 : Byte).toNat = (7 : RegIndex)) ∧ (cpu 254 []).pc.toNat ≥ 254 ∧
    (8 : Byte).toNat > 7 := by decide

theorem witness_PrnEmitsRegister :
    ((cpu 254 []).pc.toNat ≤ 254 ∧ (7 : Byte).toNat = (7 : RegIndex)) ∧ (cpu 255 []).pc.toNat ≥ 255 ∧
    (8 : Byte).toNat > 7 := by decide

theorem witness_AddWrapsModulo256 :
    ((cpu 253 []).pc.toNat ≤ 253 ∧ (7 : Byte).toNat = (7 : RegIndex) ∧ (0 : Byte).toNat = (0 : RegIndex)) ∧
    (cpu 254 []).pc.toNat ≥ 254 ∧ (8 : Byte).toNat > 7 := by decide

theorem witness_MulWrapsModulo256 :
    ((cpu 253 []).pc.toNat ≤ 253 ∧ (0 : Byte).toNat = (0 : RegIndex) ∧ (7 : Byte).toNat = (7 : RegIndex)) ∧
    (cpu 254 []).pc.toNat ≥ 254 ∧ (255 : Byte).toNat > 7 := by decide

/-- With registers that are equal (R0, R1), greater (R7, R0) and less (R0, R7). -/
theorem witness_CmpSetsExactlyOneFlag :
    ((cpu 253 []).pc.toNat ≤ 253 ∧ (0 : Byte).toNat = (0 : RegIndex) ∧ (7 : Byte).toNat = (7 : RegIndex)) ∧
    ((cpu 253 []).reg 0).toNat = ((cpu 253 []).reg 1).toNat ∧
    ((cpu 253 []).reg 7).toNat > ((cpu 253 []).reg 0).toNat ∧
    ((cpu 253 []).reg 0).toNat < ((cpu 253 []).reg 7).toNat ∧
    (cpu 254 []).pc.toNat ≥ 254 ∧ (8 : Byte).toNat > 7 := by decide

theorem witness_PushStoresBelowSp :
    (Memory.wf ((cpu 254 [0x45]).setReg 7 1).mem = true ∧ ((cpu 254 [0x45]).setReg 7 1).pc.toNat ≤ 254 ∧
      (7 : Byte).toNat = (7 : RegIndex) ∧ ((cpu 254 [0x45]).setReg 7 1).sp.toNat ≠ 0) ∧
    (cpu 255 []).pc.toNat ≥ 255 ∧ (8 : Byte).toNat > 7 ∧ ((cpu 0 []).setReg 7 0).sp.toNat = 0 := by decide

theorem witness_PopReadsAtSp :
    ((cpu 254 []).pc.toNat ≤ 254 ∧ (6 : Byte).toNat = (6 : RegIndex) ∧ (6 : RegIndex) ≠ 7 ∧
      ((cpu 254 []).setReg 7 254).sp.toNat ≠ 255) ∧
    ((7 : Byte).toNat = 7 ∧ ((cpu 254 []).readByte (cpu 254 []).sp).toNat ≠ 255) ∧
    (cpu 255 []).pc.toNat ≥ 255 ∧ (8 : Byte).toNat > 7 ∧
    ((6 : Byte).toNat < 7 ∧ ((cpu 0 []).setReg 7 255).sp.toNat = 255) ∧
    ((7 : Byte).toNat = 7 ∧ (((cpu 0 []).writeByte 0xF4 0xFF).readByte 0xF4).toNat = 255) := by decide

theorem witness_CallStacksReturnAddress :
    (Memory.wf ((cpu 253 [0x50, 7]).setReg 7 1).mem = true ∧ ((cpu 253 [0x50, 7]).setReg 7 1).pc.toNat ≤ 253 ∧
      (7 : Byte).toNat = (7 : RegIndex) ∧ ((cpu 253 [0x50, 7]).setReg 7 1).sp.toNat ≠ 0) ∧
    (cpu 254 []).pc.toNat ≥ 254 ∧ (8 : Byte).toNat > 7 ∧ ((cpu 0 []).setReg 7 0).sp.toNat = 0 := by decide

theorem witness_RetPopsIntoPc :
    ((cpu 0 []).setReg 7 254).sp.toNat ≠ 255 ∧ ((cpu 0 []).setReg 7 255).sp.toNat = 255 := by decide

theorem witness_JmpGoesToRegister :
    ((cpu 254 []).pc.toNat ≤ 254 ∧ (7 : Byte).toNat = (7 : RegIndex)) ∧ (cpu 255 []).pc.toNat ≥ 255 ∧
    (8 : Byte).toNat > 7 := by decide

theorem witness_JeqBranchesOnEqual :
    (Flags.equalSet ((cpu 254 []).setFlags 0x01).fl = true ∧ ((cpu 254 []).setFlags 0x01).pc.toNat ≤ 254 ∧
      (7 : Byte).toNat = (7 : RegIndex)) ∧
    (Flags.equalSet ((cpu 255 []).setFlags 0xFF).fl = true ∧ ((cpu 255 []).setFlags 0xFF).pc.toNat ≥ 255) ∧
    (8 : Byte).toNat > 7 ∧
    (Flags.equalSet ((cpu 255 []).setFlags 0xFE).fl = false ∧ ((cpu 255 []).setFlags 0xFE).pc.toNat ≤ 255) := by
  decide

theorem witness_JneBranchesOnNotEqual :
    (Flags.equalSet ((cpu 254 []).setFlags 0xFE).fl = false ∧ ((cpu 254 []).setFlags 0xFE).pc.toNat ≤ 254 ∧
      (7 : Byte).toNat = (7 : RegIndex)) ∧
    (Flags.equalSet ((cpu 255 []).setFlags 0x02).fl = false ∧ ((cpu 255 []).setFlags 0x02).pc.toNat ≥ 255) ∧
    (8 : Byte).toNat > 7 ∧
    (Flags.equalSet ((cpu 255 []).setFlags 0x01).fl = true ∧ ((cpu 255 []).setFlags 0x01).pc.toNat ≤ 255) := by
  decide

/-- The largest register, the smallest byte that is none, and 0x0F, which a mask would make register 7. -/
theorem witness_RegisterOperandNotMasked :
    (7 : Byte).toNat = (7 : RegIndex) ∧ (8 : Byte).toNat > 7 ∧ (0x0F : Byte).toNat > 7 := by decide

theorem witness_AluIsPure :
    (cpu 253 []).pc.toNat ≤ 253 ∧ (0 : Byte).toNat = (0 : RegIndex) ∧ (7 : Byte).toNat = (7 : RegIndex) := by decide

theorem witness_SignednessShowsOnlyInCmp :
    ((cpu 253 []).setReg 0 0x80).pc.toNat ≤ 253 ∧ (0 : Byte).toNat = (0 : RegIndex) ∧
    (7 : Byte).toNat = (7 : RegIndex) := by decide

/-- The two values CMP finds equal (R0, R1), and not (R0, R7). -/
theorem witness_JeqJneAreComplements :
    ((cpu 254 []).pc.toNat ≤ 254 ∧ (7 : Byte).toNat = (7 : RegIndex)) ∧
    ((cpu 251 []).pc.toNat ≤ 251 ∧ (0 : Byte).toNat = (0 : RegIndex) ∧ (1 : Byte).toNat = (1 : RegIndex) ∧
      (cpu 251 []).reg 0 = (cpu 251 []).reg 1 ∧ (cpu 251 []).reg 0 ≠ (cpu 251 []).reg 7) := by decide

theorem witness_PushPopRoundTrip :
    Memory.wf ((cpu 252 []).setReg 7 1).mem = true ∧ ((cpu 252 []).setReg 7 1).pc.toNat ≤ 252 ∧
    (3 : Byte).toNat = (3 : RegIndex) ∧ (6 : Byte).toNat = (6 : RegIndex) ∧ (3 : RegIndex) ≠ 7 ∧
    (6 : RegIndex) ≠ 7 ∧ ((cpu 252 []).setReg 7 1).sp.toNat ≠ 0 := by decide

/-- A push and a pop that both complete. -/
theorem witness_StackDepthBalance :
    ∃ t, (∀ i ∈ [Instr.push 0, .pop 6], StackOp i) ∧ (cpu 0 []).err = .none ∧
      execAll [.push 0, .pop 6] (cpu 0 []) = .next t ∧ t.err = .none :=
  ⟨_, by simp [StackOp], rfl, rfl, rfl⟩

theorem witness_RetReturnsAfterCall :
    ∃ t, Memory.wf (cpu 253 [0x50]).mem = true ∧ (cpu 253 [0x50]).err = .none ∧
      exec (.call 0) (cpu 253 [0x50]) = .next t ∧ t.err = .none ∧ (t.setReg 0 9).sp = t.sp ∧
      (t.setReg 0 9).readByte (t.setReg 0 9).sp = t.readByte t.sp := ⟨_, rfl, rfl, rfl, rfl, rfl, rfl⟩

/-- PUSH R0 stores HLT's byte where the next fetch is; PUSH R7 with SP = 0x46 stores 0x45, PUSH's own byte, there. -/
theorem witness_StoreIsFetchedNext :
    (let s := ((cpu 0x20 [0x45, 0]).setReg 0 1).setReg 7 0x23;
      Memory.wf s.mem = true ∧ s.run = .running ∧ OpcodeIs s .push ∧ s.byteAt (s.pc.toNat + 1) = some 0 ∧
        (0 : Byte).toNat = (0 : RegIndex) ∧ s.sp.toNat ≠ 0 ∧ s.sp.toNat = s.pc.toNat + 3 ∧ opc .hlt = s.reg 0) ∧
    (let s := (cpu 0x43 [0x45, 7]).setReg 7 0x46;
      Memory.wf s.mem = true ∧ s.run = .running ∧ OpcodeIs s .push ∧ s.byteAt (s.pc.toNat + 1) = some 7 ∧
        (7 : Byte).toNat = (7 : RegIndex) ∧ s.sp.toNat ≠ 0 ∧ s.sp.toNat = s.pc.toNat + 3 ∧
        opc .push = s.sp - 1) :=
  ⟨⟨rfl, rfl, rfl, rfl, rfl, by decide, rfl, rfl⟩, rfl, rfl, rfl, rfl, rfl, by decide, rfl, rfl⟩

/-- CALL R0 into the cell it stores to, at the last address a CALL completes at (253: the byte is 0xFF, no row's);
CALL R7 at 0x0F, whose return address 0x11 is RET's byte; and a byte that no row has. -/
theorem witness_StoreIsFetchedNext_call :
    (let s := ((cpu 253 [0x50, 0]).setReg 0 0).setReg 7 1;
      Memory.wf s.mem = true ∧ s.run = .running ∧ s.pc.toNat ≤ 253 ∧ OpcodeIs s .call ∧
        s.byteAt (s.pc.toNat + 1) = some 0 ∧ (0 : Byte).toNat = (0 : RegIndex) ∧ s.sp.toNat ≠ 0 ∧
        (s.reg 0).toNat + 1 = s.sp.toNat) ∧
    (let s := cpu 0x0F [0x50, 7];
      Memory.wf s.mem = true ∧ s.run = .running ∧ s.pc.toNat ≤ 253 ∧ OpcodeIs s .call ∧
        s.byteAt (s.pc.toNat + 1) = some 7 ∧ (7 : Byte).toNat = (7 : RegIndex) ∧ s.sp.toNat ≠ 0 ∧
        opc .ret = BitVec.ofNat 8 (s.pc.toNat + 2)) ∧
    ∀ o : Op, opc o ≠ 0xFF :=
  ⟨⟨rfl, rfl, by decide, rfl, rfl, rfl, by decide, rfl⟩, ⟨rfl, rfl, by decide, rfl, rfl, rfl, by decide, rfl⟩,
    by intro o; cases o <;> decide⟩

/-- Two stores to one cell, and one store of 0, which unlists its cell. -/
theorem witness_MemReadGivesLastWritten :
    ((([(0xF3, 1), (0xF3, 0xAB), (0x10, 2), (0x10, 0)] : List (Byte × Byte)).foldl
      (fun s w => s.writeByte w.1 w.2) (State.resetWith 0)).mem = [(0xF3, 0xAB)]) ∧
    lastWritten [(0xF3, 1), (0xF3, 0xAB), (0x10, 2), (0x10, 0)] 0xF3 = 0xAB := by decide

theorem witness_OnlyEqualBitInfluencesRun :
    AgreeButFlags (cpu 0 [0x55, 0]) ((cpu 0 [0x55, 0]).setFlags 0xFE) ∧
    Flags.equalSet (cpu 0 [0x55, 0]).fl = Flags.equalSet ((cpu 0 [0x55, 0]).setFlags 0xFE).fl :=
  ⟨⟨rfl, rfl, rfl, rfl, rfl, rfl⟩, rfl⟩

theorem witness_CmpErasesOldFlags :
    let s := cpu 0 [0xA7, 0, 1]
    AgreeButFlags s (s.setFlags 0xFF) ∧ ¬ OpcodeIs s .jeq ∧ ¬ OpcodeIs s .jne ∧ s.run = .running ∧ s.err = .none ∧
      OpcodeIs s .cmp :=
  ⟨⟨rfl, rfl, rfl, rfl, rfl, rfl⟩, (by decide : ¬ some (0xA7 : Byte) = some (opc .jeq)),
    (by decide : ¬ some (0xA7 : Byte) = some (opc .jne)), rfl, rfl, rfl⟩

end Sys2Proof.Tests
end

section
/-! What FL can influence (spec/00_scope.md R7, 10_state.md R30 to R33). Two states that differ only in FL are a state
`s` and `s.setFlags v`, so the lemmas here say how each operation commutes with `State.setFlags`: every one does but
CMP, which overwrites FL, and JEQ and JNE, which read bit E of it. -/

namespace Sys2Proof.Machine

open Sys2Proof.Claims

/-! ### States that differ only in FL -/

theorem agreeButFlags_setFlags (s : State) (v : Byte) : AgreeButFlags s (s.setFlags v) :=
  ⟨rfl, rfl, rfl, rfl, rfl, rfl⟩

theorem eq_setFlags_of_agreeButFlags {s t : State} (h : AgreeButFlags s t) : t = s.setFlags t.fl := by
  obtain ⟨hmem, hregs, hpc, hrun, herr, hout⟩ := h
  cases t
  simp_all [State.setFlags]

variable {s u : State} (v : Byte)

/-! ### Checked effects after a change of FL -/

/-- A check that does not look at FL passes alike, and what follows it commutes with the change. -/
theorem bind_setFlags {α : Type} {c : Option α} {f f' : α → Option State}
    (hf : ∀ x, f' x = (f x).map (·.setFlags v)) : c.bind f' = (c.bind f).map (·.setFlags v) := by
  cases c with
  | none => rfl
  | some x => exact hf x

/-- The same after a check that hands on an updated state. -/
theorem bind_map_setFlags {c c' : Option State} {f f' : State → Option State}
    (hc : c' = c.map (·.setFlags v)) (hf : ∀ t, f' (t.setFlags v) = (f t).map (·.setFlags v)) :
    c'.bind f' = (c.bind f).map (·.setFlags v) := by
  subst hc
  cases c with
  | none => rfl
  | some t => exact hf t

theorem State.decSp_setFlags : (s.setFlags v).decSp = s.decSp.map (·.setFlags v) := by
  unfold State.decSp
  rw [State.sp_setFlags]
  split <;> rfl

theorem State.incSp_setFlags : (s.setFlags v).incSp = s.incSp.map (·.setFlags v) := by
  unfold State.incSp
  rw [State.sp_setFlags]
  split <;> rfl

theorem State.jumpReg_setFlags (a : Byte) : (s.setFlags v).jumpReg a = (s.jumpReg a).map (·.setFlags v) :=
  bind_setFlags v fun _ => rfl

theorem State.branch_setFlags (taken : Bool) (a : Byte) :
    (s.setFlags v).branch taken a = (s.branch taken a).map (·.setFlags v) := by
  cases taken with
  | true => exact State.jumpReg_setFlags v a
  | false => rfl

/-- An instruction whose checked effect commutes with a change of FL does so as a whole: its fault does too. -/
theorem State.orOutOfBounds_setFlags {c c' : Option State} (hc : c' = c.map (·.setFlags v))
    (h : s.orOutOfBounds c = .next u) : (s.setFlags v).orOutOfBounds c' = .next (u.setFlags v) := by
  subst hc
  cases c <;> cases h <;> rfl

/-! ### Instructions after a change of FL -/

theorem aluInstruction_setFlags {op : AluOp} (hop : op ≠ .cmp) (a b : Byte)
    (h : aluInstruction op a b s = .next u) :
    aluInstruction op a b (s.setFlags v) = .next (u.setFlags v) := by
  refine State.orOutOfBounds_setFlags v (bind_setFlags v fun _ => ?_) h
  cases op with
  | add => rfl
  | mul => rfl
  | cmp => exact absurd rfl hop

/-- Every instruction but CMP hands the changed FL on untouched and does otherwise the same; for JEQ and JNE the
change has to keep bit E (10_state.md R32). -/
theorem exec_setFlags {i : Instr} (hcmp : i.op ≠ .cmp)
    (hbranch : i.op = .jeq ∨ i.op = .jne → Flags.equalSet v = Flags.equalSet s.fl)
    (h : exec i s = .next u) : exec i (s.setFlags v) = .next (u.setFlags v) := by
  cases i with
  | nop => cases h; rfl
  | hlt => cases h; rfl
  | cmp a b => exact absurd rfl hcmp
  | add a b => exact aluInstruction_setFlags (op := .add) v nofun a b h
  | mul a b => exact aluInstruction_setFlags (op := .mul) v nofun a b h
  | ldi a b => exact State.orOutOfBounds_setFlags v (bind_setFlags v fun _ => rfl) h
  | prn a => exact State.orOutOfBounds_setFlags v (bind_setFlags v fun _ => rfl) h
  | push a =>
    exact State.orOutOfBounds_setFlags v
      (bind_setFlags v fun _ => bind_map_setFlags v (State.decSp_setFlags v) fun _ => rfl) h
  | pop a =>
    exact State.orOutOfBounds_setFlags v
      (bind_setFlags v fun d => bind_map_setFlags v
        (State.incSp_setFlags (s := s.setReg d (s.readByte s.sp)) v) fun _ => rfl) h
  | call a =>
    exact State.orOutOfBounds_setFlags v (bind_setFlags v fun _ => bind_setFlags v fun _ =>
      bind_map_setFlags v (State.decSp_setFlags v) fun _ => rfl) h
  | ret =>
    exact State.orOutOfBounds_setFlags v (bind_map_setFlags v (State.incSp_setFlags v) fun _ => rfl) h
  | jmp a => exact State.orOutOfBounds_setFlags v (State.jumpReg_setFlags v a) h
  | jeq a =>
    refine State.orOutOfBounds_setFlags v ?_ h
    rw [State.setFlags_fl, hbranch (.inl rfl), State.branch_setFlags]
  | jne a =>
    refine State.orOutOfBounds_setFlags v ?_ h
    rw [State.setFlags_fl, hbranch (.inr rfl), State.branch_setFlags]

/-- CMP overwrites FL: it completes alike whatever FL was, or it faults and hands the changed FL on. -/
theorem execCmp_setFlags_cases (a b : Byte) (s : State) :
    execCmp a b (s.setFlags v) = execCmp a b s ∨
    (execCmp a b s = .next (s.raise (.outOfBounds s.pc)) ∧
      execCmp a b (s.setFlags v) = .next ((s.raise (.outOfBounds s.pc)).setFlags v)) := by
  have hop : (s.setFlags v).operandRegReg a b = s.operandRegReg a b := rfl
  simp only [execCmp, aluInstruction, hop]
  cases s.operandRegReg a b with
  | none => exact .inr ⟨rfl, rfl⟩
  | some p => exact .inl rfl

theorem eq_cmp_of_op_eq_cmp {i : Instr} (h : i.op = .cmp) : ∃ a b, i = .cmp a b :=
  match i, h with
  | .cmp a b, _ => ⟨a, b, rfl⟩

/-- An instruction other than JEQ and JNE keeps states that differ only in FL so, and a CMP that completes makes them
equal. -/
theorem exec_erases_flags {i : Instr} (hjeq : i.op ≠ .jeq) (hjne : i.op ≠ .jne) (s : State) :
    ∃ u u', exec i s = .next u ∧ exec i (s.setFlags v) = .next u' ∧ AgreeButFlags u u' ∧
      (i.op = .cmp → u.err = .none → u = u') := by
  obtain ⟨u, hu⟩ := exec_next s i
  by_cases hcmp : i.op = .cmp
  · obtain ⟨a, b, rfl⟩ := eq_cmp_of_op_eq_cmp hcmp
    rcases execCmp_setFlags_cases v a b s with heq | ⟨hfault, hfault'⟩
    · exact ⟨u, u, hu, heq.trans hu, agreeButFlags_setFlags u u.fl, fun _ _ => rfl⟩
    · exact ⟨_, _, hfault, hfault', agreeButFlags_setFlags _ v, fun _ => nofun⟩
  · exact ⟨u, u.setFlags v, hu, exec_setFlags v hcmp (fun h => (h.elim hjeq hjne).elim) hu,
      agreeButFlags_setFlags u v, fun h => absurd h hcmp⟩

/-! ### A cycle, by what its fetch and decode answer -/

theorem step_of_halted (h : s.run = .halted) : step s = .next s := by
  simp only [step, h, State.idle]

theorem step_of_fetchDecode_error {r : FaultRecord} (h : s.run = .running) (hf : s.fetchDecode = .error r) :
    step s = .next (s.raise r) := by
  simp only [step, h, hf]

theorem step_of_fetchDecode_ok {i : Instr} (h : s.run = .running) (hf : s.fetchDecode = .ok i) :
    step s = exec i s := by
  simp only [step, h, hf]

theorem State.fetchDecode_setFlags : (s.setFlags v).fetchDecode = s.fetchDecode := rfl

/-- The decoded instruction is of the row its opcode byte names. -/
theorem opcodeIs_of_fetchDecode_ok {i : Instr} (hf : s.fetchDecode = .ok i) : OpcodeIs s i.op := by
  rcases s.fetchDecode_cases with ⟨_, he⟩ | ⟨_, _, he⟩ | ⟨o, hpc, ho, he⟩
  · cases he.symm.trans hf
  · cases he.symm.trans hf
  · cases he.symm.trans hf
    rw [OpcodeIs, Op.instr_op, (Op.ofByte_eq_some opc_valid).1 ho, State.byteAt_of_le hpc, State.opcodeByte]

theorem opcodeIs_unique {o o' : Op} (h : OpcodeIs s o) (h' : OpcodeIs s o') : o = o' :=
  opc_valid.distinct o o' (Option.some.inj (h.symm.trans h'))

theorem State.fetchDecode_error_ne_none {r : FaultRecord} (hf : s.fetchDecode = .error r) : r ≠ .none := by
  rcases s.fetchDecode_cases with ⟨_, he⟩ | ⟨_, _, he⟩ | ⟨o, _, _, he⟩ <;> cases he.symm.trans hf <;> nofun

/-- Settles O55: two states that differ only in FL fetch and decode alike, so the statement is `exec_erases_flags` at
the decoded instruction. -/
theorem cmpErasesOldFlags : Obligations.CmpErasesOldFlags := by
  intro s t hagree hjeq hjne
  rw [eq_setFlags_of_agreeButFlags hagree]
  generalize t.fl = v
  cases hrun : s.run with
  | halted =>
    exact ⟨s, s.setFlags v, step_of_halted hrun, step_of_halted hrun, agreeButFlags_setFlags s v, nofun⟩
  | running =>
    have hrun' := (s.setFlags_run v).trans hrun
    cases hf : s.fetchDecode with
    | error r =>
      have hf' := (State.fetchDecode_setFlags v).trans hf
      exact ⟨s.raise r, (s.setFlags v).raise r, step_of_fetchDecode_error hrun hf,
        step_of_fetchDecode_error hrun' hf', agreeButFlags_setFlags (s.raise r) v,
        fun _ _ _ hnone => absurd hnone (State.fetchDecode_error_ne_none hf)⟩
    | ok i =>
      have hf' := (State.fetchDecode_setFlags v).trans hf
      have hop := opcodeIs_of_fetchDecode_ok hf
      obtain ⟨u, u', hu, hu', hagree', herase⟩ :=
        exec_erases_flags v (fun h => hjeq (h ▸ hop)) (fun h => hjne (h ▸ hop)) s
      exact ⟨u, u', (step_of_fetchDecode_ok hrun hf).trans hu, (step_of_fetchDecode_ok hrun' hf').trans hu',
        hagree', fun _ _ hcmp => herase (opcodeIs_unique hop hcmp)⟩

end Sys2Proof.Machine
end

section
/-! What one instruction and one cycle leave as it was (spec/10_state.md R21, R28, R31, R34 to R36). Each frame is one
case split over the effects of an instruction (`exec_effect`); the statements about a cycle add the ways in which a
cycle executes no instruction. -/

namespace Sys2Proof.Machine

open Sys2Proof.Claims

variable {s t : State} {i : Instr}

/-! ### Moving SP -/

theorem State.decSp_eq_setReg (h : s.decSp = some t) : t = s.setReg Config.spIndex (s.sp - 1) :=
  (State.decSp_eq_some.1 h).2

theorem State.incSp_eq_setReg (h : s.incSp = some t) : t = s.setReg Config.spIndex (s.sp + 1) :=
  (State.incSp_eq_some.1 h).2

theorem controlKept_of_decSp (h : s.decSp = some t) : ControlKept s t := by
  obtain rfl := State.decSp_eq_setReg h
  exact ⟨rfl, rfl, rfl, rfl⟩

theorem controlKept_of_incSp (h : s.incSp = some t) : ControlKept s t := by
  obtain rfl := State.incSp_eq_setReg h
  exact ⟨rfl, rfl, rfl, rfl⟩

/-! ### Frames of one instruction -/

/-- Who changes RUN, ERR, FL and OUT: a fault, HLT, PRN and CMP, each in its own way; nothing else does. -/
theorem Effect.control_cases (h : Effect s i t) :
    t = s.raise (.outOfBounds s.pc) ∨
    (i = .hlt ∧ t = s.halt) ∨
    (∃ (a : Byte) (r : RegIndex), i = .prn a ∧ a.toNat = r ∧ t = (s.emit (s.reg r)).advance 2) ∨
    (∃ (a b : Byte) (d r : RegIndex), i = .cmp a b ∧
      t = (s.setFlags (Flags.compare (s.reg d) (s.reg r))).advance 3) ∨
    ControlKept s t := by
  have kept {p q r u : Prop} (hk : ControlKept s t) : p ∨ q ∨ r ∨ u ∨ ControlKept s t :=
    .inr (.inr (.inr (.inr hk)))
  cases h with
  | fault => exact .inl rfl
  | hlt => exact .inr (.inl ⟨rfl, rfl⟩)
  | prn a r _ hr => exact .inr (.inr (.inl ⟨a, r, rfl, hr, rfl⟩))
  | cmp a b d r => exact .inr (.inr (.inr (.inl ⟨a, b, d, r, rfl, rfl⟩)))
  | push _ _ u _ _ hu => exact kept (controlKept_of_decSp hu :)
  | call _ _ u _ _ hu => exact kept (controlKept_of_decSp hu :)
  | pop _ _ u _ _ hu => exact kept (controlKept_of_incSp hu :)
  | ret u hu => exact kept (controlKept_of_incSp hu :)
  | nop | ldi | add | mul | jmp | jeqTaken | jeqNot | jneTaken | jneNot => exact kept ⟨rfl, rfl, rfl, rfl⟩

theorem Effect.fl_eq (h : Effect s i t) (hcmp : i.op ≠ .cmp) : t.fl = s.fl := by
  rcases h.control_cases with rfl | ⟨-, rfl⟩ | ⟨a, r, -, -, rfl⟩ | ⟨a, b, d, r, rfl, -⟩ | ⟨-, -, hfl, -⟩
  · rfl
  · rfl
  · rfl
  · exact absurd rfl hcmp
  · exact hfl

theorem Effect.out_cases (h : Effect s i t) :
    t.out = s.out ∨
      ∃ (a : Byte) (r : RegIndex), i = .prn a ∧ a.toNat = r ∧ t.out = s.out ++ [s.reg r] := by
  rcases h.control_cases with rfl | ⟨-, rfl⟩ | ⟨a, r, hi, hr, rfl⟩ | ⟨a, b, d, r, -, rfl⟩ | ⟨-, -, -, hout⟩
  · exact .inl rfl
  · exact .inl rfl
  · exact .inr ⟨a, r, hi, hr, rfl⟩
  · exact .inl rfl
  · exact .inl hout

theorem Effect.run_err_cases (h : Effect s i t) :
    t = s.raise (.outOfBounds s.pc) ∨ (i = .hlt ∧ t = s.halt) ∨ (t.run = s.run ∧ t.err = s.err) := by
  rcases h.control_cases with hf | hhlt | ⟨a, r, -, -, rfl⟩ | ⟨a, b, d, r, -, rfl⟩ | ⟨hrun, herr, -, -⟩
  · exact .inl hf
  · exact .inr (.inl hhlt)
  · exact .inr (.inr ⟨rfl, rfl⟩)
  · exact .inr (.inr ⟨rfl, rfl⟩)
  · exact .inr (.inr ⟨hrun, herr⟩)

/-- Memory is as before, or one byte was stored, by PUSH or CALL. -/
theorem Effect.mem_cases (h : Effect s i t) :
    t.mem = s.mem ∨ (Stores i ∧ ∃ a v : Byte, t.mem = (s.writeByte a v).mem) := by
  cases h with
  | push _ r u _ _ hu =>
    obtain rfl := State.decSp_eq_setReg hu
    exact .inr ⟨trivial, _, _, rfl⟩
  | call _ r u _ _ hu =>
    obtain rfl := State.decSp_eq_setReg hu
    exact .inr ⟨trivial, _, _, rfl⟩
  | pop _ _ u _ _ hu =>
    obtain rfl := State.incSp_eq_setReg hu
    exact .inl rfl
  | ret u hu =>
    obtain rfl := State.incSp_eq_setReg hu
    exact .inl rfl
  | nop | hlt | ldi | prn | add | mul | cmp | jmp | jeqTaken | jeqNot | jneTaken | jneNot | fault =>
    exact .inl rfl

theorem Effect.mem_wf (h : Effect s i t) (hwf : Memory.wf s.mem = true) : Memory.wf t.mem = true := by
  rcases h.mem_cases with hmem | ⟨-, a, v, hmem⟩
  · rwa [hmem]
  · rw [hmem]
    exact State.writeByte_wf hwf a v

/-! ### The program counter after one instruction -/

theorem State.jumpTo_pc_le (s : State) (v : Byte) : (s.jumpTo v).pc.toNat ≤ 257 := by
  rw [State.jumpTo_pc_toNat]
  have := v.isLt
  omega

/-- R43 (b): an instruction that starts in range leaves the pc at most 257. -/
theorem Effect.pc_le (h : Effect s i t) (hpc : s.pc.toNat ≤ 255) : t.pc.toNat ≤ 257 := by
  have advanced {u : State} {n : Nat} (hu : u.pc = s.pc) (hn : s.pc.toNat + n ≤ 257) :
      (u.advance n).pc.toNat ≤ 257 := by
    rw [← hu] at hn
    rw [State.advance_pc_toNat (by omega)]
    exact hn
  cases h with
  | fault | hlt => exact hpc.trans (by decide)
  | nop | jeqNot | jneNot => exact advanced rfl (by omega)
  | ldi | prn | add | mul | cmp => exact advanced rfl (by omega)
  | push _ _ u _ _ hu =>
    obtain rfl := State.decSp_eq_setReg hu
    exact advanced rfl (by omega)
  | pop _ _ u _ _ hu =>
    obtain rfl := State.incSp_eq_setReg hu
    exact advanced rfl (by omega)
  | call | ret | jmp | jeqTaken | jneTaken => exact State.jumpTo_pc_le _ _

/-- R28: an instruction takes its fault, or it leaves the pc by its own rule. -/
theorem Effect.pcRule (h : Effect s i t) (hpc : s.pc.toNat ≤ 255) :
    t = s.raise (.outOfBounds s.pc) ∨ PcRule s t i := by
  have advanced {u : State} {n : Nat} (hu : u.pc = s.pc) (hn : n ≤ 3) :
      (u.advance n).pc.toNat = s.pc.toNat + n := by
    rw [State.advance_pc_toNat (by rw [hu]; omega), hu]
  have jumped (u : State) (r : RegIndex) : (u.jumpTo (u.reg r)).pc.toNat = ((u.jumpTo (u.reg r)).reg r).toNat :=
    u.jumpTo_pc_toNat _
  cases h with
  | fault => exact .inl rfl
  | hlt => exact .inr rfl
  | nop | ldi | prn | add | mul | cmp => exact .inr (advanced rfl (by decide))
  | push _ _ u _ _ hu =>
    obtain rfl := State.decSp_eq_setReg hu
    exact .inr (advanced rfl (by decide))
  | pop _ _ u _ _ hu =>
    obtain rfl := State.incSp_eq_setReg hu
    exact .inr (advanced rfl (by decide))
  | call _ r u _ hr => exact .inr ⟨r, hr, State.jumpTo_pc_toNat _ _⟩
  | ret u => exact .inr (State.jumpTo_pc_toNat _ _)
  | jmp _ r _ hr => exact .inr ⟨r, hr, jumped s r⟩
  | jeqTaken _ r hf _ hr =>
    rw [PcRule, if_pos hf]
    exact .inr ⟨r, hr, jumped s r⟩
  | jeqNot _ hf =>
    rw [PcRule, if_neg (by simp [hf])]
    exact .inr (advanced rfl (by decide))
  | jneTaken _ r hf _ hr =>
    rw [PcRule, if_neg (by simp [hf])]
    exact .inr ⟨r, hr, jumped s r⟩
  | jneNot _ hf =>
    rw [PcRule, if_pos hf]
    exact .inr (advanced rfl (by decide))

/-! ### The inversion of a cycle -/

/-- `CycleEffect s t`: one cycle may take `s` to `t` (40_loop_and_system.md R110, R111, R113, R120). -/
inductive CycleEffect (s : State) : State → Prop where
  | idle : s.run = .halted → CycleEffect s s
  | pcFault : s.run = .running → 255 < s.pc.toNat → CycleEffect s (s.raise (.outOfBounds s.pc))
  | opcodeFault (byte : Byte) : s.run = .running → s.byteAt s.pc.toNat = some byte →
      Op.ofByte opc byte = none → CycleEffect s (s.raise (.unsupportedOpcode s.pc byte))
  | executed (i : Instr) (t : State) : s.run = .running → s.pc.toNat ≤ 255 → OpcodeIs s i.op →
      Effect s i t → CycleEffect s t

/-- What a cycle answers is one of its effects. -/
theorem step_effect (h : step s = .next t) : CycleEffect s t := by
  have key {u : State} (hu : step s = .next u) : u = t := Host.Outcome.next.inj (hu.symm.trans h)
  rcases step_cases s with ⟨hrun, he⟩ | ⟨hrun, hpc, he⟩ | ⟨hrun, hpc, ho, he⟩ | ⟨o, hrun, hpc, ho, he⟩
  · exact key he ▸ .idle hrun
  · exact key he ▸ .pcFault hrun hpc
  · exact key he ▸ .opcodeFault _ hrun (State.byteAt_of_le hpc) ho
  · refine .executed _ t hrun hpc ?_ (exec_effect (he.symm.trans h))
    rw [OpcodeIs, Op.instr_op, (Op.ofByte_eq_some opc_valid).1 ho]
    exact State.byteAt_of_le hpc

/-! ### The frames as the statements give them -/

theorem faultTaken_raise (s : State) (r : FaultRecord) : FaultTaken r s (s.raise r) :=
  ⟨rfl, rfl, rfl, rfl, rfl, rfl, rfl⟩

/-- Settles O23: the frame `Effect.fl_eq` for instructions and, through the cycle's effects, for cycles. -/
theorem onlyCmpWritesFlags : Obligations.OnlyCmpWritesFlags := by
  refine ⟨fun i s t hcmp h => ?_, fun s t hcmp h => ?_, fun s t hpc h => ?_⟩
  · refine (exec_effect h).fl_eq fun hop => ?_
    obtain ⟨a, b, hi⟩ := eq_cmp_of_op_eq_cmp hop
    exact hcmp a b hi
  · cases step_effect h with
    | idle | pcFault | opcodeFault => rfl
    | executed i _ _ _ hop heff => exact heff.fl_eq fun hi => hcmp (hi ▸ hop)
  · cases h
    exact ⟨fun _ => rfl, rfl, State.advance_pc_toNat (by omega)⟩

/-- Settles O24, by `Effect.mem_cases`. -/
theorem storeFreeFormsKeepMemory : Obligations.StoreFreeFormsKeepMemory := by
  intro i s t hstores h a
  rcases (exec_effect h).mem_cases with hmem | ⟨hi, -⟩
  · rw [State.readByte, hmem, State.readByte]
  · exact absurd hi hstores

/-- Settles O27, by `Effect.out_cases` and the cycle's effects. -/
theorem outputOnlyGrowsByPrn : Obligations.OutputOnlyGrowsByPrn := by
  refine ⟨fun i s t hprn h => ?_, fun a s t h => ?_, fun s t h => ?_⟩
  · rcases (exec_effect h).out_cases with hout | ⟨a, r, hi, -, -⟩
    · exact hout
    · exact absurd hi (hprn a)
  · rcases (exec_effect h).out_cases with hout | ⟨_, r, hi, hr, hout⟩
    · exact .inl hout
    · cases hi
      exact .inr ⟨r, hr, hout⟩
  · cases step_effect h with
    | idle | pcFault | opcodeFault => exact .inl rfl
    | executed i _ _ _ hop heff =>
      rcases heff.out_cases with hout | ⟨a, r, rfl, -, hout⟩
      · exact .inl hout
      · exact .inr ⟨hop, r, hout⟩

/-- Settles O28, by `Effect.run_err_cases`. -/
theorem onlyHltOrFaultHalts : Obligations.OnlyHltOrFaultHalts := by
  intro i s t hhlt h
  rcases (exec_effect h).run_err_cases with rfl | ⟨hi, -⟩ | hkept
  · exact .inl (faultTaken_raise s _)
  · exact absurd hi hhlt
  · exact .inr hkept

/-- Settles O30, by `Effect.pcRule`: only a fault writes ERR, and it keeps the pc. -/
theorem pcUpdatePerInstruction : Obligations.PcUpdatePerInstruction := by
  intro i s t hpc herr h
  have heff := exec_effect h
  rcases heff.pcRule hpc with rfl | hrule
  · exact ⟨nofun, fun _ => rfl⟩
  · refine ⟨fun _ => hrule, fun hne => ?_⟩
    rcases heff.run_err_cases with rfl | ⟨-, rfl⟩ | ⟨-, hkept⟩
    · rfl
    · rfl
    · exact absurd (hkept.trans herr) hne

end Sys2Proof.Machine
end

section
/-! The invariant of spec/10_state.md R43: reset meets it and every cycle keeps it, field by field from the frames of
one instruction. -/

namespace Sys2Proof.Machine

open Sys2Proof.Claims

variable {s t : State} {i : Instr} {fl0 : Byte}

/-! ### Reset -/

theorem State.resetWith_reg {j : RegIndex} (h : j ≠ 7) (fl : Byte) : (State.resetWith fl).reg j = 0 := by
  have key : ∀ j : RegIndex, j ≠ 7 → (#v[0, 0, 0, 0, 0, 0, 0, Config.spReset] : Vector Byte 8)[j] = 0 := by decide
  exact key j h

theorem State.resetWith_inv (fl : Byte) : (State.resetWith fl).Inv fl where
  mem_wf := State.resetWith_wf fl
  pc_le := Nat.zero_le _
  flags := .inl rfl
  end_fits := rfl

/-- Settles O1. -/
theorem resetValues : Obligations.ResetValues := by
  refine ⟨fun fl s hs => ?_, rfl⟩
  subst hs
  exact ⟨fun _ => rfl, fun _ hi => State.resetWith_reg hi fl, rfl, rfl, rfl, rfl, rfl, rfl⟩

/-- Settles O2. -/
theorem resetMeetsInvariant : Obligations.ResetMeetsInvariant :=
  ⟨State.resetWith_inv, State.resetWith_inv Config.flReset⟩

/-! ### Flags -/

theorem Flags.oneHot_compare (x y : Byte) : Flags.OneHot (Flags.compare x y) := by
  unfold Flags.compare
  split
  · exact .inl rfl
  · split
    · exact .inr (.inl rfl)
    · exact .inr (.inr rfl)

/-- R30, R31: FL is as before or what a CMP leaves. -/
theorem Effect.fl_cases (h : Effect s i t) : t.fl = s.fl ∨ Flags.OneHot t.fl := by
  by_cases hcmp : i.op = .cmp
  · obtain ⟨a, b, rfl⟩ := eq_cmp_of_op_eq_cmp hcmp
    cases h with
    | cmp => exact .inr (Flags.oneHot_compare _ _)
    | fault => exact .inl rfl
  · exact .inl (h.fl_eq hcmp)

/-! ### Run state and fault record -/

theorem State.endFits_of_running (hrun : s.run = .running) (herr : s.err = .none) : s.EndFits := by
  simp only [State.EndFits, hrun, herr]

theorem State.EndFits.err_eq_none (h : s.EndFits) (hrun : s.run = .running) : s.err = .none := by
  simpa only [State.EndFits, hrun] using h

theorem State.endFits_raise_outOfBounds (s : State) : (s.raise (.outOfBounds s.pc)).EndFits := rfl

theorem State.endFits_raise_unsupportedOpcode {byte : Byte} (hbyte : s.byteAt s.pc.toNat = some byte)
    (hop : Op.ofByte opc byte = none) : (s.raise (.unsupportedOpcode s.pc byte)).EndFits :=
  ⟨rfl, hbyte, hop⟩

theorem State.endFits_halt (herr : s.err = .none) (hop : OpcodeIs s .hlt) : s.halt.EndFits := by
  simp only [State.EndFits, State.halt_run, State.halt_err, herr]
  exact ⟨opc .hlt, hop, (Op.ofByte_eq_some opc_valid).2 rfl⟩

/-- An instruction executed by a Running core that has recorded no fault ends as R35 and R43 (d) say. -/
theorem Effect.endFits (h : Effect s i t) (hrun : s.run = .running) (herr : s.err = .none)
    (hop : OpcodeIs s i.op) : t.EndFits := by
  rcases h.run_err_cases with rfl | ⟨rfl, rfl⟩ | ⟨hrun', herr'⟩
  · exact s.endFits_raise_outOfBounds
  · exact State.endFits_halt herr hop
  · exact State.endFits_of_running (hrun'.trans hrun) (herr'.trans herr)

/-! ### The cycle -/

/-- A fault keeps the invariant if its record fits: it changes RUN and ERR only. -/
theorem State.Inv.raise (h : s.Inv fl0) {r : FaultRecord} (hfits : (s.raise r).EndFits) : (s.raise r).Inv fl0 :=
  ⟨h.mem_wf, h.pc_le, h.flags, hfits⟩

theorem State.Inv.effect (h : s.Inv fl0) (hrun : s.run = .running) (hpc : s.pc.toNat ≤ 255)
    (hop : OpcodeIs s i.op) (heff : Effect s i t) : t.Inv fl0 where
  mem_wf := heff.mem_wf h.mem_wf
  pc_le := heff.pc_le hpc
  flags := by
    rcases heff.fl_cases with hfl | hone
    · rw [hfl]
      exact h.flags
    · exact .inr hone
  end_fits := heff.endFits hrun (h.end_fits.err_eq_none hrun) hop

/-- Settles O3: the invariant is kept by each of the ways a cycle can go. -/
theorem stepKeepsInvariant : Obligations.StepKeepsInvariant := by
  intro fl0 s t hinv h
  cases step_effect h with
  | idle => exact hinv
  | pcFault => exact hinv.raise s.endFits_raise_outOfBounds
  | opcodeFault byte _ hbyte hnone => exact hinv.raise (State.endFits_raise_unsupportedOpcode hbyte hnone)
  | executed i _ hrun hpc hop heff => exact hinv.effect hrun hpc hop heff

end Sys2Proof.Machine
end

section
/-! Bit E is all of FL that a run can see (spec/10_state.md R32): a cycle keeps two states that differ at most in the
other bits of FL so, and with it every run does. -/

namespace Sys2Proof.Machine

open Sys2Proof.Claims

/-- Two states that differ at most in FL, and there not in bit E. -/
def AgreeButUnreadFlags (s t : State) : Prop := AgreeButFlags s t ∧ Flags.equalSet s.fl = Flags.equalSet t.fl

theorem agreeButUnreadFlags_refl (s : State) : AgreeButUnreadFlags s s := ⟨agreeButFlags_setFlags s s.fl, rfl⟩

theorem agreeButUnreadFlags_setFlags {s : State} {v : Byte} (hv : Flags.equalSet s.fl = Flags.equalSet v) :
    AgreeButUnreadFlags s (s.setFlags v) :=
  ⟨agreeButFlags_setFlags s v, hv⟩

/-- CMP may erase the difference; every other instruction hands it on. -/
theorem exec_keeps_agreeButUnreadFlags {s : State} {v : Byte} (hv : Flags.equalSet s.fl = Flags.equalSet v)
    (i : Instr) :
    ∃ u u', exec i s = .next u ∧ exec i (s.setFlags v) = .next u' ∧ AgreeButUnreadFlags u u' := by
  obtain ⟨u, hu⟩ := exec_next s i
  by_cases hcmp : i.op = .cmp
  · obtain ⟨a, b, rfl⟩ := eq_cmp_of_op_eq_cmp hcmp
    rcases execCmp_setFlags_cases v a b s with heq | ⟨hfault, hfault'⟩
    · exact ⟨u, u, hu, heq.trans hu, agreeButUnreadFlags_refl u⟩
    · exact ⟨_, _, hfault, hfault', agreeButUnreadFlags_setFlags hv⟩
  · have hfl : u.fl = s.fl := (exec_effect hu).fl_eq hcmp
    exact ⟨u, u.setFlags v, hu, exec_setFlags v hcmp (fun _ => hv.symm) hu,
      agreeButUnreadFlags_setFlags (hfl ▸ hv)⟩

theorem step_keeps_agreeButUnreadFlags {s t : State} (h : AgreeButUnreadFlags s t) :
    ∃ s' t', step s = .next s' ∧ step t = .next t' ∧ AgreeButUnreadFlags s' t' := by
  obtain ⟨hagree, hv⟩ := h
  rw [eq_setFlags_of_agreeButFlags hagree]
  generalize t.fl = v at hv
  have hfetch := State.fetchDecode_setFlags (s := s) v
  cases hrun : s.run with
  | halted => exact ⟨s, s.setFlags v, step_of_halted hrun, step_of_halted hrun, agreeButUnreadFlags_setFlags hv⟩
  | running =>
    have hrun' := (s.setFlags_run v).trans hrun
    cases hf : s.fetchDecode with
    | error r =>
      exact ⟨s.raise r, (s.setFlags v).raise r, step_of_fetchDecode_error hrun hf,
        step_of_fetchDecode_error hrun' (hfetch.trans hf), agreeButUnreadFlags_setFlags hv⟩
    | ok i =>
      obtain ⟨u, u', hu, hu', hagree'⟩ := exec_keeps_agreeButUnreadFlags hv i
      exact ⟨u, u', (step_of_fetchDecode_ok hrun hf).trans hu,
        (step_of_fetchDecode_ok hrun' (hfetch.trans hf)).trans hu', hagree'⟩

theorem runFrom_keeps_agreeButUnreadFlags (k : Nat) : ∀ {s t : State}, AgreeButUnreadFlags s t →
    ∃ s' t', runFrom k s = .next s' ∧ runFrom k t = .next t' ∧ AgreeButUnreadFlags s' t' := by
  induction k with
  | zero => exact fun {s t} h => ⟨s, t, runFrom_zero s, runFrom_zero t, h⟩
  | succ k ih =>
    intro s t h
    obtain ⟨s₁, t₁, hs, ht, h₁⟩ := step_keeps_agreeButUnreadFlags h
    obtain ⟨s', t', hs', ht', h'⟩ := ih h₁
    exact ⟨s', t', (runFrom_succ k hs).trans hs', (runFrom_succ k ht).trans ht', h'⟩

/-- Settles O54, by induction on the number of cycles. -/
theorem onlyEqualBitInfluencesRun : Obligations.OnlyEqualBitInfluencesRun := by
  intro k s t hagree hbit
  exact runFrom_keeps_agreeButUnreadFlags k ⟨hagree, hbit⟩

end Sys2Proof.Machine
end

section
/-! Memory as data (spec/10_state.md R21, 20_memory.md R62): an instruction other than POP and RET does over another
memory what it does over its own, but for memory itself; and the byte that PUSH or CALL stores is none of memory's. -/

namespace Sys2Proof.Machine

open Sys2Proof.Claims

/-- The state over another memory. -/
def State.withMem (s : State) (m : List Host.Cell) : State := { s with mem := m }

@[simp] theorem State.sp_withMem (s : State) (m : List Host.Cell) : (s.withMem m).sp = s.sp := rfl

/-- `t` and `u` differ at most in memory. -/
def AgreeButMem (t u : State) : Prop := ∃ m, u = t.withMem m

/-- Two checked effects: both fail, or both pass with states that differ at most in memory. -/
abbrev CheckedAgreeButMem : Option State → Option State → Prop := Option.Rel AgreeButMem

variable {s t u : State} {a b : Byte} {m : List Host.Cell}

theorem agreeButMem_withMem (t : State) (m : List Host.Cell) : AgreeButMem t (t.withMem m) := ⟨m, rfl⟩

theorem State.decSp_withMem (s : State) (m : List Host.Cell) :
    (s.withMem m).decSp = s.decSp.map (·.withMem m) := by
  unfold State.decSp
  rw [State.sp_withMem]
  split <;> rfl

/-! ### Checked effects over another memory -/

/-- A check that does not look at memory passes alike. -/
theorem checkedAgreeButMem_bind {α : Type} (c : Option α) {f f' : α → Option State}
    (h : ∀ x, CheckedAgreeButMem (f x) (f' x)) : CheckedAgreeButMem (c.bind f) (c.bind f') := by
  cases c with
  | none => exact .none
  | some x => exact h x

theorem checkedAgreeButMem_decSp {f f' : State → Option State}
    (h : ∀ v, CheckedAgreeButMem (f v) (f' (v.withMem m))) :
    CheckedAgreeButMem (s.decSp.bind f) ((s.withMem m).decSp.bind f') := by
  rw [State.decSp_withMem]
  cases s.decSp with
  | none => exact .none
  | some v => exact h v

theorem checkedAgreeButMem_jumpReg (s : State) (m : List Host.Cell) (a : Byte) :
    CheckedAgreeButMem (s.jumpReg a) ((s.withMem m).jumpReg a) :=
  checkedAgreeButMem_bind (s.operandReg a) fun _ => .some (agreeButMem_withMem _ m)

theorem checkedAgreeButMem_branch (s : State) (m : List Host.Cell) (taken : Bool) (a : Byte) :
    CheckedAgreeButMem (s.branch taken a) ((s.withMem m).branch taken a) := by
  cases taken with
  | true => exact checkedAgreeButMem_jumpReg s m a
  | false => exact .some (agreeButMem_withMem _ m)

/-- Outcomes are as their checked effects: a fault, too, leaves states that differ at most in memory. -/
theorem agreeButMem_orOutOfBounds {c c' : Option State} (ht : s.orOutOfBounds c = .next t)
    (hu : (s.withMem m).orOutOfBounds c' = .next u) (hc : CheckedAgreeButMem c c') : AgreeButMem t u := by
  cases hc with
  | none =>
    cases ht
    cases hu
    exact agreeButMem_withMem _ m
  | some h =>
    cases ht
    cases hu
    exact h

/-! ### Instructions over another memory -/

theorem aluInstruction_agreeButMem (op : AluOp) (ht : aluInstruction op a b s = .next t)
    (hu : aluInstruction op a b (s.withMem m) = .next u) : AgreeButMem t u := by
  refine agreeButMem_orOutOfBounds ht hu (checkedAgreeButMem_bind (s.operandRegReg a b) fun _ => .some ?_)
  cases op <;> exact agreeButMem_withMem _ m

theorem exec_agreeButMem {i : Instr} (hi : ¬ ReadsData i) (ht : exec i s = .next t)
    (hu : exec i (s.withMem m) = .next u) : AgreeButMem t u := by
  cases i with
  | pop | ret => exact absurd trivial hi
  | nop | hlt =>
    cases ht
    cases hu
    exact agreeButMem_withMem _ m
  | add a b => exact aluInstruction_agreeButMem .add ht hu
  | mul a b => exact aluInstruction_agreeButMem .mul ht hu
  | cmp a b => exact aluInstruction_agreeButMem .cmp ht hu
  | ldi a b =>
    exact agreeButMem_orOutOfBounds ht hu
      (checkedAgreeButMem_bind (s.operandRegImm a b) fun _ => .some (agreeButMem_withMem _ m))
  | prn a =>
    exact agreeButMem_orOutOfBounds ht hu
      (checkedAgreeButMem_bind (s.operandReg a) fun _ => .some (agreeButMem_withMem _ m))
  | push a =>
    exact agreeButMem_orOutOfBounds ht hu (checkedAgreeButMem_bind (s.operandReg a) fun _ =>
      checkedAgreeButMem_decSp fun _ => .some ⟨_, rfl⟩)
  | call a =>
    exact agreeButMem_orOutOfBounds ht hu (checkedAgreeButMem_bind (s.operandReg a) fun _ =>
      checkedAgreeButMem_bind s.returnAddress fun _ =>
        checkedAgreeButMem_decSp fun _ => .some ⟨_, rfl⟩)
  | jmp a => exact agreeButMem_orOutOfBounds ht hu (checkedAgreeButMem_jumpReg s m a)
  | jeq a => exact agreeButMem_orOutOfBounds ht hu (checkedAgreeButMem_branch s m (Flags.equalSet s.fl) a)
  | jne a => exact agreeButMem_orOutOfBounds ht hu (checkedAgreeButMem_branch s m (!Flags.equalSet s.fl) a)

/-! ### The byte PUSH and CALL store -/

/-- `StackedByte s v i w`: PUSH and CALL, at `s`, store `w`, where `v` is `s` after the decrement of SP (R161, R171). -/
def StackedByte (s v : State) (w : Byte) : Instr → Prop
  | .push a => ∃ r : RegIndex, a.toNat = r ∧ w = v.reg r
  | .call _ => w = BitVec.ofNat 8 (s.pc.toNat + 2)
  | _ => False

theorem stackedByte_unique {s v : State} {i : Instr} {w w' : Byte} (h : StackedByte s v w i)
    (h' : StackedByte s v w' i) : w = w' := by
  cases i with
  | push a =>
    obtain ⟨r, hr, rfl⟩ := h
    obtain ⟨r', hr', rfl⟩ := h'
    rw [Fin.ext (hr.symm.trans hr')]
  | call a => exact h.trans h'.symm
  | _ => exact h.elim

theorem State.readByte_writeByte_same {s : State} (hwf : Memory.wf s.mem = true) (x w : Byte) :
    (s.writeByte x w).readByte x = w := by
  rw [State.readByte_writeByte hwf, if_pos rfl]

/-- A PUSH or CALL that completes over a canonical memory leaves its byte at the decremented SP. -/
theorem Effect.stackedByte {v : State} {i : Instr} (h : Effect s i t) (hi : Stores i)
    (hwf : Memory.wf s.mem = true) (hv : s.decSp = some v) (herr : t.err = .none) :
    StackedByte s v (t.readByte v.sp) i := by
  have hwfv : Memory.wf v.mem = true := by
    obtain rfl := State.decSp_eq_setReg hv
    exact hwf
  cases h with
  | fault => cases herr
  | push a r v' _ hr hv' =>
    cases hv.symm.trans hv'
    exact ⟨r, hr, State.readByte_writeByte_same hwfv _ _⟩
  | call a r v' _ _ hv' =>
    cases hv.symm.trans hv'
    exact State.readByte_writeByte_same hwfv _ _
  | _ => exact hi.elim

theorem not_readsData_of_stores {i : Instr} (h : Stores i) : ¬ ReadsData i := by
  cases i with
  | push | call => exact id
  | _ => exact h.elim

/-- Settles O29: the first clause is `exec_agreeButMem`; for the second, the byte that `Effect.stackedByte` finds at
the decremented SP is read off the registers and the pc alone. -/
theorem onlyPopRetReadData : Obligations.OnlyPopRetReadData := by
  refine ⟨fun i s t u m hi ht hu => ?_, fun i s t u v m hi hwf hwf' hv ht hu herr => ?_⟩
  · obtain ⟨m', rfl⟩ := exec_agreeButMem hi ht hu
    exact ⟨rfl, rfl, rfl, rfl, rfl, rfl⟩
  · obtain ⟨m', rfl⟩ := exec_agreeButMem (not_readsData_of_stores hi) ht hu
    have hv' : (s.withMem m).decSp = some (v.withMem m) := by rw [State.decSp_withMem, hv, Option.map_some]
    have hbyte := (exec_effect ht).stackedByte hi hwf hv herr
    have hbyte' := (exec_effect (s := s.withMem m) hu).stackedByte hi hwf' hv' herr
    exact stackedByte_unique hbyte' hbyte

end Sys2Proof.Machine
end

section
/-! Stores to memory (spec/20_memory.md R51, R52): any number of them from a state, and the one that PUSH and CALL
make. -/

namespace Sys2Proof.Machine

open Sys2Proof.Claims

/-! ### A store leaves every other address alone

Unlike `Memory.read_write` this needs no canonical form. -/

theorem Memory.read_cons_ne {a x : Nat} (h : x ≠ a) (v : Byte) (rest : List Host.Cell) :
    Memory.read (Memory.cons a v rest) x = Memory.read rest x := by
  unfold Memory.cons
  split
  · rfl
  · rw [Memory.read_cons_cell, if_neg h.symm]

theorem Memory.read_write_ne {a x : Nat} (h : x ≠ a) (v : Byte) (m : List Host.Cell) :
    Memory.read (Memory.write m a v) x = Memory.read m x := by
  induction m with
  | nil => exact Memory.read_cons_ne h v []
  | cons cell rest ih =>
    obtain ⟨k, w⟩ := cell
    unfold Memory.write
    split
    · exact Memory.read_cons_ne h v _
    · split
      · next hak => rw [Memory.read_cons_ne h, Memory.read_cons_cell, if_neg (hak ▸ h.symm)]
      · rw [Memory.read_cons_cell, Memory.read_cons_cell, ih]

theorem State.readByte_writeByte_ne {a x : Byte} (h : x ≠ a) (s : State) (v : Byte) :
    (s.writeByte a v).readByte x = s.readByte x :=
  Memory.read_write_ne (fun hn => h (BitVec.eq_of_toNat_eq hn)) v s.mem

/-! ### Any number of stores -/

/-- The state after a list of stores, oldest first. -/
def State.storeBytes (s : State) (stores : List (Byte × Byte)) : State :=
  stores.foldl (fun s w => s.writeByte w.1 w.2) s

theorem State.agreeButMem_storeBytes (stores : List (Byte × Byte)) :
    ∀ s : State, AgreeButMem s (s.storeBytes stores) := by
  induction stores with
  | nil => exact fun s => ⟨s.mem, rfl⟩
  | cons w rest ih =>
    intro s
    obtain ⟨m, hm⟩ := ih (s.writeByte w.1 w.2)
    exact ⟨m, hm⟩

/-- A cell reads as the byte last stored to it, or as before if none was. -/
theorem State.readByte_storeBytes (stores : List (Byte × Byte)) (a : Byte) :
    ∀ {s : State}, Memory.wf s.mem = true → (s.storeBytes stores).readByte a =
      stores.foldl (fun seen w => if w.1 = a then w.2 else seen) (s.readByte a) := by
  induction stores with
  | nil => exact fun _ => rfl
  | cons w rest ih =>
    intro s hwf
    have hfirst : (s.writeByte w.1 w.2).readByte a = if w.1 = a then w.2 else s.readByte a := by
      rw [State.readByte_writeByte hwf]
      simp only [eq_comm]
    rw [List.foldl_cons, ← hfirst]
    exact ih (State.writeByte_wf hwf w.1 w.2)

/-- Settles O53: the reset state's memory is canonical and reads as 0. -/
theorem memReadGivesLastWritten : Obligations.MemReadGivesLastWritten := by
  rintro stores fl _ rfl
  refine ⟨fun a => State.readByte_storeBytes stores a (State.resetWith_wf fl), ?_⟩
  obtain ⟨m, hm⟩ := State.agreeButMem_storeBytes stores (State.resetWith fl)
  rw [State.storeBytes] at hm
  rw [hm]
  exact ⟨rfl, rfl, rfl, rfl, rfl, rfl⟩

/-! ### The store of PUSH and CALL -/

variable {s t u : State} {i : Instr}

theorem State.decSp_mem (h : s.decSp = some u) : u.mem = s.mem := by
  rw [State.decSp_eq_setReg h, State.setReg_mem]

theorem State.decSp_pc (h : s.decSp = some u) : u.pc = s.pc := by
  rw [State.decSp_eq_setReg h, State.setReg_pc]

/-- PUSH and CALL fault and store nothing, or store one byte at the decremented SP. -/
theorem Effect.store_cases (h : Effect s i t) (hi : Stores i) :
    t.mem = s.mem ∨ ∃ u w, s.decSp = some u ∧ t.mem = (s.writeByte u.sp w).mem := by
  cases h with
  | fault => exact .inl rfl
  | push a r u _ _ hu => exact .inr ⟨u, u.reg r, hu, by simp [State.decSp_mem hu]⟩
  | call a r u _ _ hu => exact .inr ⟨u, BitVec.ofNat 8 (s.pc.toNat + 2), hu, by simp [State.decSp_mem hu]⟩
  | _ => exact hi.elim

theorem memKept_of_mem_eq (h : t.mem = s.mem) : MemKept s t := fun a => by
  rw [State.readByte, State.readByte, h]

theorem memKeptBut_of_mem_eq_writeByte {x w : Byte} (h : t.mem = (s.writeByte x w).mem) :
    MemKeptBut x s t := fun a ha =>
  (memKept_of_mem_eq h a).trans (State.readByte_writeByte_ne ha s w)

/-- Settles O25, by `Effect.store_cases`. -/
theorem pushCallStoreOneByte : Obligations.PushCallStoreOneByte := by
  intro i s t hi h
  rcases (exec_effect h).store_cases hi with hmem | ⟨v, w, hv, hmem⟩
  · exact ⟨fun _ _ a _ => memKept_of_mem_eq hmem a, fun _ => memKept_of_mem_eq hmem⟩
  · refine ⟨fun u hu => ?_, fun hnone => ?_⟩
    · cases hv.symm.trans hu
      exact memKeptBut_of_mem_eq_writeByte hmem
    · cases hv.symm.trans hnone

end Sys2Proof.Machine
end

section
/-! The bytes a cycle fetches (spec/20_memory.md R62, R65, R67, R68): those beyond address 255 do not matter, and a
byte that PUSH or CALL stored is there for the very next fetch. -/

namespace Sys2Proof.Machine

open Sys2Proof.Claims

variable {s t u : State}

/-! ### The instruction a cycle executes -/

/-- Three bytes decode to an instruction of the row that the first one names, with the two others as operands. -/
theorem decode_three_ok {byte a b : Byte} {i : Instr} {rest : List Byte}
    (h : decode [byte, a, b] = .ok (i, rest)) : ∃ o, Op.ofByte opc byte = some o ∧ i = o.instr a b := by
  rcases decodeWith_three (m := opc) byte a b with ⟨-, he⟩ | ⟨o, rest', ho, he⟩
  · cases h.symm.trans he
  · cases h.symm.trans he
    exact ⟨o, ho, rfl⟩

theorem step_of_ofByte_eq_some {o : Op} (hrun : s.run = .running) (hpc : s.pc.toNat ≤ 255)
    (ho : Op.ofByte opc s.opcodeByte = some o) :
    step s = exec (o.instr (s.eagerByte 1) (s.eagerByte 2)) s := by
  rcases s.fetchDecode_cases with ⟨hgt, -⟩ | ⟨-, hnone, -⟩ | ⟨o', -, ho', hf⟩
  · omega
  · cases ho.symm.trans hnone
  · cases ho.symm.trans ho'
    exact step_of_fetchDecode_ok hrun hf

theorem step_of_ofByte_eq_none (hrun : s.run = .running) (hpc : s.pc.toNat ≤ 255)
    (ho : Op.ofByte opc s.opcodeByte = none) :
    step s = .next (s.raise (.unsupportedOpcode s.pc s.opcodeByte)) := by
  rcases s.fetchDecode_cases with ⟨hgt, -⟩ | ⟨-, -, hf⟩ | ⟨o', -, ho', -⟩
  · omega
  · exact step_of_fetchDecode_error hrun hf
  · cases ho.symm.trans ho'

theorem State.byteAt_eq_some {a : Nat} {byte : Byte} :
    s.byteAt a = some byte ↔ a ≤ 255 ∧ Memory.read s.mem a = byte := by
  unfold State.byteAt
  split <;> simp_all

/-- A Running core executes the row whose opcode byte stands at the pc. -/
theorem step_of_opcodeIs {o : Op} (hrun : s.run = .running) (h : OpcodeIs s o) :
    step s = exec (o.instr (s.eagerByte 1) (s.eagerByte 2)) s := by
  obtain ⟨hpc, hbyte⟩ := State.byteAt_eq_some.1 h
  exact step_of_ofByte_eq_some hrun hpc ((Op.ofByte_eq_some opc_valid).2 hbyte.symm)

/-- A Running core runs the byte at its pc. -/
theorem runsByteNext_of_byteAt_pc {byte : Byte} (hrun : t.run = .running)
    (h : t.byteAt t.pc.toNat = some byte) : RunsByteNext t byte := by
  obtain ⟨hpc, rfl⟩ := State.byteAt_eq_some.1 h
  refine ⟨fun o ho => ⟨_, Op.instr_op o _ _, step_of_opcodeIs hrun (h.trans (congrArg some ho.symm))⟩,
    fun hnone => ⟨_, ?_, faultTaken_raise t _⟩⟩
  exact step_of_ofByte_eq_none hrun hpc (Op.ofByte_eq_none.2 hnone)

/-! ### Eager bytes beyond memory -/

/-- An instruction sees its operand bytes only through `State.operandA` and `State.operandB`. -/
theorem exec_instr_congr {a a' b b' : Byte} (o : Op) (ha : s.operandA a = s.operandA a')
    (hb : s.operandB b = s.operandB b') : exec (o.instr a b) s = exec (o.instr a' b') s := by
  have hreg : s.operandReg a = s.operandReg a' := by rw [State.operandReg, ha, State.operandReg]
  have hregReg : s.operandRegReg a b = s.operandRegReg a' b' := by
    rw [State.operandRegReg, ha, hb, State.operandRegReg]
  have hregImm : s.operandRegImm a b = s.operandRegImm a' b' := by
    rw [State.operandRegImm, ha, hb, State.operandRegImm]
  have hjump : s.jumpReg a = s.jumpReg a' := by rw [State.jumpReg, hreg, State.jumpReg]
  cases o with
  | nop | hlt | ret => rfl
  | ldi => simp only [Op.instr, exec, execLdi, hregImm]
  | prn => simp only [Op.instr, exec, execPrn, hreg]
  | add => simp only [Op.instr, exec, execAdd, aluInstruction, hregReg]
  | mul => simp only [Op.instr, exec, execMul, aluInstruction, hregReg]
  | cmp => simp only [Op.instr, exec, execCmp, aluInstruction, hregReg]
  | push => simp only [Op.instr, exec, execPush, hreg]
  | pop => simp only [Op.instr, exec, execPop, hreg]
  | call => simp only [Op.instr, exec, execCall, hreg]
  | jmp => simp only [Op.instr, exec, execJmp, hjump]
  | jeq => simp only [Op.instr, exec, execJeq, State.branch, hjump]
  | jne => simp only [Op.instr, exec, execJne, State.branch, hjump]

/-- The use of operand_a faults where a filler stands for it. -/
theorem State.operandA_filler (s : State) (filler filler' : Byte) :
    s.operandA ((s.byteAt (s.pc.toNat + 1)).getD filler) =
      s.operandA ((s.byteAt (s.pc.toNat + 1)).getD filler') := by
  by_cases h : s.pc.toNat + 1 ≤ 255
  · rw [State.byteAt_of_le h, Option.getD_some, Option.getD_some]
  · rw [State.operandA_eq_none.2 (by omega), State.operandA_eq_none.2 (by omega)]

/-- The use of operand_b faults where a filler stands for it. -/
theorem State.operandB_filler (s : State) (filler filler' : Byte) :
    s.operandB ((s.byteAt (s.pc.toNat + 2)).getD filler) =
      s.operandB ((s.byteAt (s.pc.toNat + 2)).getD filler') := by
  by_cases h : s.pc.toNat + 2 ≤ 255
  · rw [State.byteAt_of_le h, Option.getD_some, Option.getD_some]
  · rw [State.operandB_eq_none.2 (by omega), State.operandB_eq_none.2 (by omega)]

/-- Settles O15: the opcode byte is in memory, and the operand bytes of the two fetches are used alike. -/
theorem eagerBytesBeyondMemoryIgnored : Obligations.EagerBytesBeyondMemoryIgnored := by
  intro s filler i rest hrun hpc hdec
  rw [State.fetchBytes, State.byteAt_of_le hpc, Option.getD_some] at hdec
  obtain ⟨o, ho, rfl⟩ := decode_three_ok hdec
  rw [step_of_ofByte_eq_some hrun hpc ho]
  exact exec_instr_congr o (s.operandA_filler 0 filler) (s.operandB_filler 0 filler)

/-! ### The byte PUSH and CALL store, at the next fetch -/

theorem State.eagerByte_eq_of_byteAt {k : Nat} {a : Byte} (h : s.byteAt (s.pc.toNat + k) = some a) :
    s.eagerByte k = a := by
  rw [State.eagerByte, h, Option.getD_some]

theorem State.byteAt_toNat (s : State) (x : Byte) : s.byteAt x.toNat = some (s.readByte x) :=
  State.byteAt_of_le (Nat.le_of_lt_succ x.isLt)

theorem State.byteAt_advance (s : State) (n x : Nat) : (s.advance n).byteAt x = s.byteAt x := rfl

theorem State.byteAt_jumpTo (s : State) (target : Byte) (x : Nat) : (s.jumpTo target).byteAt x = s.byteAt x := rfl

theorem State.decSp_sp_toNat (h : s.decSp = some u) : u.sp.toNat = s.sp.toNat - 1 := by
  obtain ⟨hsp, rfl⟩ := State.decSp_eq_some.1 h
  rw [State.sp_setReg_sp]
  bv_omega

/-- A register after the decrement of SP (decision D19). -/
theorem State.decSp_reg (h : s.decSp = some u) (r : RegIndex) :
    u.reg r = if r = 7 then s.sp - 1 else s.reg r := by
  rw [State.decSp_eq_setReg h]
  exact s.reg_setReg Config.spIndex r _

/-- A byte stored at the decremented SP stands at SP - 1. -/
theorem State.byteAt_of_decSp (hwf : Memory.wf s.mem = true) (h : s.decSp = some u) (w : Byte) :
    (u.writeByte u.sp w).byteAt (s.sp.toNat - 1) = some w := by
  have hwfu : Memory.wf u.mem = true := by rwa [State.decSp_mem h]
  rw [← State.decSp_sp_toNat h, State.byteAt_toNat, State.readByte_writeByte_same hwfu]

variable {a : Byte} {r : RegIndex}

theorem execPush_of_guards (hpc : s.pc.toNat + 1 ≤ 255) (hr : a.toNat = r) (hu : s.decSp = some u) :
    exec (.push a) s = .next ((u.writeByte u.sp (u.reg r)).advance 2) := by
  rcases execPush_cases a s with ⟨r', u', -, hr', hu', he⟩ | ⟨hfault, -⟩
  · cases hu.symm.trans hu'
    cases Fin.ext (hr.symm.trans hr')
    exact he
  · have := (State.decSp_eq_some.1 hu).1
    omega

theorem execCall_of_guards (hpc : s.pc.toNat + 2 ≤ 255) (hr : a.toNat = r) (hu : s.decSp = some u) :
    exec (.call a) s =
      .next ((u.writeByte u.sp (BitVec.ofNat 8 (s.pc.toNat + 2))).jumpTo (u.reg r)) := by
  rcases execCall_cases a s with ⟨r', u', -, hr', hu', he⟩ | ⟨hfault, -⟩
  · cases hu.symm.trans hu'
    cases Fin.ext (hr.symm.trans hr')
    exact he
  · have := (State.decSp_eq_some.1 hu).1
    omega

/-- A completed PUSH has its byte at SP - 1; if the next fetch is there, the next cycle runs it. -/
theorem step_push_stored_byte (hwf : Memory.wf s.mem = true) (hrun : s.run = .running) (hop : OpcodeIs s .push)
    (ha : s.byteAt (s.pc.toNat + 1) = some a) (hr : a.toNat = r) (hu : s.decSp = some u) :
    ∃ t, step s = .next t ∧ t.pc.toNat = s.pc.toNat + 2 ∧ t.byteAt (s.sp.toNat - 1) = some (u.reg r) ∧
      (s.sp.toNat = s.pc.toNat + 3 → RunsByteNext t (u.reg r)) := by
  obtain ⟨hpc, -⟩ := State.byteAt_eq_some.1 ha
  have hstep := step_of_opcodeIs hrun hop
  rw [State.eagerByte_eq_of_byteAt ha] at hstep
  obtain ⟨hkept, -⟩ := controlKept_of_decSp hu
  have hbyte := State.byteAt_of_decSp hwf hu (u.reg r)
  have hupc : (u.writeByte u.sp (u.reg r)).pc = s.pc := (State.decSp_pc hu :)
  have hpc' : ((u.writeByte u.sp (u.reg r)).advance 2).pc.toNat = s.pc.toNat + 2 := by
    rw [State.advance_pc_toNat (by rw [hupc]; omega), hupc]
  refine ⟨_, hstep.trans (execPush_of_guards hpc hr hu), hpc', hbyte, fun hat => ?_⟩
  have hat' : s.pc.toNat + 2 = s.sp.toNat - 1 := by omega
  refine runsByteNext_of_byteAt_pc (hkept.trans hrun) ?_
  rw [hpc', hat', State.byteAt_advance, hbyte]

/-- A completed CALL has its return address at SP - 1; if the target is there, the next cycle runs it. -/
theorem step_call_stored_byte (hwf : Memory.wf s.mem = true) (hrun : s.run = .running) (hop : OpcodeIs s .call)
    (hpc : s.pc.toNat + 2 ≤ 255) (ha : s.byteAt (s.pc.toNat + 1) = some a) (hr : a.toNat = r)
    (hu : s.decSp = some u) :
    ∃ t, step s = .next t ∧ t.pc.toNat = (u.reg r).toNat ∧
      t.byteAt (s.sp.toNat - 1) = some (BitVec.ofNat 8 (s.pc.toNat + 2)) ∧
      ((u.reg r).toNat = s.sp.toNat - 1 → RunsByteNext t (BitVec.ofNat 8 (s.pc.toNat + 2))) := by
  have hstep := step_of_opcodeIs hrun hop
  rw [State.eagerByte_eq_of_byteAt ha] at hstep
  obtain ⟨hkept, -⟩ := controlKept_of_decSp hu
  have hbyte := State.byteAt_of_decSp hwf hu (BitVec.ofNat 8 (s.pc.toNat + 2))
  have hpc' := (u.writeByte u.sp (BitVec.ofNat 8 (s.pc.toNat + 2))).jumpTo_pc_toNat (u.reg r)
  refine ⟨_, hstep.trans (execCall_of_guards hpc hr hu), hpc', hbyte, fun hat => ?_⟩
  refine runsByteNext_of_byteAt_pc (hkept.trans hrun) ?_
  rw [hpc', hat, State.byteAt_jumpTo, hbyte]

/-- CALL's target is where it stores, for CALL R7 always (decision D19). -/
theorem State.decSp_reg_toNat_eq (hu : s.decSp = some u) (hr : r = 7 ∨ (s.reg r).toNat + 1 = s.sp.toNat) :
    (u.reg r).toNat = s.sp.toNat - 1 := by
  by_cases h7 : r = 7
  · subst h7
    exact State.decSp_sp_toNat hu
  · rw [State.decSp_reg hu, if_neg h7]
    have := hr.resolve_left h7
    omega

/-- Settles O52, by `step_push_stored_byte` and `step_call_stored_byte`. -/
theorem storeIsFetchedNext : Obligations.StoreIsFetchedNext := by
  refine ⟨fun s a r hwf hrun hop ha hr hsp => ?_, fun s a r hwf hrun hpc hop ha hr hsp => ?_⟩
  · have hu := State.decSp_eq_some.2 ⟨hsp, rfl⟩
    obtain ⟨t, hstep, hpc', hbyte, hnext⟩ := step_push_stored_byte hwf hrun hop ha hr hu
    exact ⟨t, _, hstep, hpc', State.decSp_reg hu r, hbyte, hnext⟩
  · have hu := State.decSp_eq_some.2 ⟨hsp, rfl⟩
    obtain ⟨t, hstep, hpc', hbyte, hnext⟩ := step_call_stored_byte hwf hrun hop (by omega) ha hr hu
    rw [State.decSp_reg hu r] at hpc'
    have hv : (BitVec.ofNat 8 (s.pc.toNat + 2)).toNat = s.pc.toNat + 2 := by
      rw [BitVec.toNat_ofNat]
      omega
    exact ⟨t, _, hstep, hpc', hv, hbyte, fun hr => hnext (State.decSp_reg_toNat_eq hu hr)⟩

end Sys2Proof.Machine
end

section
/-! Encoding and decoding under any admitted opcode map (spec/30_encoding.md R80, R81, R84, R87): an instruction is a
row with its operand bytes, and its bytes are the row's opcode byte followed by as many operand bytes as the row's
length leaves room for. -/

namespace Sys2Proof

variable {m : OpcodeMap}

/-- Every instruction is its row with some operand bytes. -/
theorem Instr.exists_eq_instr (i : Instr) : ∃ o a b, i = Op.instr o a b := by
  cases i with
  | nop => exact ⟨.nop, 0, 0, rfl⟩
  | hlt => exact ⟨.hlt, 0, 0, rfl⟩
  | ret => exact ⟨.ret, 0, 0, rfl⟩
  | ldi a b => exact ⟨.ldi, a, b, rfl⟩
  | add a b => exact ⟨.add, a, b, rfl⟩
  | mul a b => exact ⟨.mul, a, b, rfl⟩
  | cmp a b => exact ⟨.cmp, a, b, rfl⟩
  | prn a => exact ⟨.prn, a, 0, rfl⟩
  | push a => exact ⟨.push, a, 0, rfl⟩
  | pop a => exact ⟨.pop, a, 0, rfl⟩
  | call a => exact ⟨.call, a, 0, rfl⟩
  | jmp a => exact ⟨.jmp, a, 0, rfl⟩
  | jeq a => exact ⟨.jeq, a, 0, rfl⟩
  | jne a => exact ⟨.jne, a, 0, rfl⟩

theorem encodeWith_instr (m : OpcodeMap) (o : Op) (a b : Byte) :
    encodeWith m (o.instr a b) = m o :: [a, b].take (o.length - 1) := by
  cases o <;> rfl

/-- The decoder takes from the bytes after a row's opcode byte as many as the row has operands. -/
theorem decodeWith_row (hm : m.Valid) (o : Op) (a b : Byte) (rest : List Byte) :
    decodeWith m (m o :: ([a, b].take (o.length - 1) ++ rest)) = .ok (o.instr a b, rest) := by
  have ho : Op.ofByte m (m o) = some o := (Op.ofByte_eq_some hm).2 rfl
  cases hf : o.format with
  | f0 => simp [decodeWith, ho, hf, Op.length, Format.length, Op.instr_f0 hf a b 0 0]
  | f1 => simp [decodeWith, ho, hf, Op.length, Format.length, Op.instr_f1 hf a b 0]
  | f2r => simp [decodeWith, ho, hf, Op.length, Format.length]
  | f2i => simp [decodeWith, ho, hf, Op.length, Format.length]

/-- What decodes at all begins with the opcode byte of a row, and after it stand the row's operand bytes. -/
theorem decodeWith_ok_cases (hm : m.Valid) {bytes rest : List Byte} {i : Instr}
    (h : decodeWith m bytes = .ok (i, rest)) :
    ∃ o a b, i = Op.instr o a b ∧ bytes = m o :: ([a, b].take (o.length - 1) ++ rest) := by
  match bytes with
  | [] => cases h
  | byte :: operands =>
    cases ho : Op.ofByte m byte with
    | none => simp [decodeWith, ho] at h
    | some o =>
      obtain rfl := (Op.ofByte_eq_some hm).1 ho
      cases hf : o.format with
      | f0 =>
        obtain ⟨rfl, rfl⟩ : o.instr 0 0 = i ∧ operands = rest := by simpa [decodeWith, ho, hf] using h
        exact ⟨o, 0, 0, rfl, by simp [Op.length, hf, Format.length]⟩
      | f1 =>
        match operands with
        | [] => simp [decodeWith, ho, hf] at h
        | a :: tail =>
          obtain ⟨rfl, rfl⟩ : o.instr a 0 = i ∧ tail = rest := by simpa [decodeWith, ho, hf] using h
          exact ⟨o, a, 0, rfl, by simp [Op.length, hf, Format.length]⟩
      | f2r | f2i =>
        match operands with
        | [] | [_] => simp [decodeWith, ho, hf] at h
        | a :: b :: tail =>
          obtain ⟨rfl, rfl⟩ : o.instr a b = i ∧ tail = rest := by simpa [decodeWith, ho, hf] using h
          exact ⟨o, a, b, rfl, by simp [Op.length, hf, Format.length]⟩

/-- The decoder rejects the opcode byte exactly when no row has it. -/
theorem decodeWith_eq_unsupportedOpcode {byte : Byte} {operands : List Byte} :
    decodeWith m (byte :: operands) = .error (.unsupportedOpcode byte) ↔ ∀ o : Op, m o ≠ byte := by
  rw [← Op.ofByte_eq_none]
  cases ho : Op.ofByte m byte with
  | none => simp [decodeWith, ho]
  | some o =>
    simp only [decodeWith, ho, reduceCtorEq, iff_false]
    split <;> nofun

theorem decodeWith_encodeWith (hm : m.Valid) (i : Instr) (rest : List Byte) :
    decodeWith m (encodeWith m i ++ rest) = .ok (i, rest) := by
  obtain ⟨o, a, b, rfl⟩ := i.exists_eq_instr
  rw [encodeWith_instr, List.cons_append, decodeWith_row hm]

/-- Settles O9, by `decodeWith_encodeWith`. -/
theorem decodeOfEncode : Obligations.DecodeOfEncode :=
  ⟨fun _ i rest hm => decodeWith_encodeWith hm i rest, decodeWith_encodeWith opc_valid⟩

/-- Settles O10, by the inversion `decodeWith_ok_cases`. -/
theorem encodeOfDecode : Obligations.EncodeOfDecode := by
  intro m bytes rest i hm h
  obtain ⟨o, a, b, rfl, rfl⟩ := decodeWith_ok_cases hm h
  rw [encodeWith_instr, List.cons_append]

/-- Settles O11: the fourteen numbers are those of R84's map, in rising order. -/
theorem legalOpcodeBytes : Obligations.LegalOpcodeBytes := by
  intro byte operands
  have hperm : (Op.all.map fun o => (opc o).toNat).Perm
      [0x00, 0x01, 0x11, 0x45, 0x46, 0x47, 0x50, 0x54, 0x55, 0x56, 0x82, 0xA0, 0xA2, 0xA7] := by decide
  rw [decode, decodeWith_eq_unsupportedOpcode, ← hperm.mem_iff]
  simp [Op.mem_all, BitVec.toNat_inj]

/-- Settles O12: each word is the encoding of its instruction. -/
theorem decodeTableExamples : Obligations.DecodeTableExamples :=
  have h (i : Instr) : decode (encode i ++ []) = .ok (i, []) := decodeWith_encodeWith opc_valid i []
  ⟨h .nop, h (.ldi 0 8), h (.ldi 1 9), h (.prn 0), h .hlt, h (.add 0 1), h (.mul 3 4), h (.cmp 0 2), h (.push 6),
    h (.pop 1), h (.call 1), h .ret, h (.jmp 3), h (.jeq 2), h (.jne 7)⟩

end Sys2Proof
end

section
/-! Register operands (spec/10_state.md R26, 30_encoding.md R82): a byte above 7 names no register, so an instruction
that uses it has no effect but the fault. -/

namespace Sys2Proof.Machine

open Sys2Proof.Claims

variable {s t : State} {i j : Instr} {a : Byte}

theorem regByteOk_of_toNat_eq {r : RegIndex} (h : a.toNat = r) : regByteOk a = true := by
  rw [regByteOk, decide_eq_true_iff]
  omega

theorem regByteOk_eq_false (h : a.toNat > 7) : regByteOk a = false := by simpa [regByteOk] using h

/-- With a register operand above 7 the only effect of an instruction is the fault; JEQ and JNE are left out, since a
branch not taken uses no operand (decision D20). -/
theorem Effect.eq_raise_of_not_wf (h : Effect s i t) (hwf : i.wf = false) (hjeq : i.op ≠ .jeq)
    (hjne : i.op ≠ .jne) : t = s.raise (.outOfBounds s.pc) := by
  cases h with
  | fault => rfl
  | nop | hlt | ret => cases hwf
  | jeqTaken | jeqNot => exact absurd rfl hjeq
  | jneTaken | jneNot => exact absurd rfl hjne
  | ldi _ _ _ _ ha | prn _ _ _ ha | push _ _ _ _ ha | pop _ _ _ _ ha | call _ _ _ _ ha | jmp _ _ _ ha =>
    simp [Instr.wf, regByteOk_of_toNat_eq ha] at hwf
  | add _ _ _ _ _ ha hb | mul _ _ _ _ _ ha hb | cmp _ _ _ _ _ ha hb =>
    simp [Instr.wf, regByteOk_of_toNat_eq ha, regByteOk_of_toNat_eq hb] at hwf

theorem raisesOutOfBounds_of_not_wf (hwf : i.wf = false) (hjeq : i.op ≠ .jeq) (hjne : i.op ≠ .jne)
    (s : State) : RaisesOutOfBounds i s := by
  obtain ⟨t, ht⟩ := exec_next s i
  obtain rfl := (exec_effect ht).eq_raise_of_not_wf hwf hjeq hjne
  exact ⟨_, ht, faultTaken_raise s _⟩

theorem raisesOutOfBounds_congr (h : exec i s = exec j s) : RaisesOutOfBounds i s ↔ RaisesOutOfBounds j s := by
  rw [RaisesOutOfBounds, h, RaisesOutOfBounds]

/-- A fault leaves the pc, which an advance by 2 moves at every value of its 9 bits. -/
theorem not_raisesOutOfBounds_of_advance (h : exec i s = .next (s.advance 2)) : ¬ RaisesOutOfBounds i s := by
  rintro ⟨t, ht, -, -, -, -, -, hpc, -⟩
  obtain rfl := Host.Outcome.next.inj (h.symm.trans ht)
  rw [State.advance_pc] at hpc
  bv_omega

theorem raisesOutOfBounds_jmp (ha : a.toNat > 7) (s : State) : RaisesOutOfBounds (.jmp a) s :=
  raisesOutOfBounds_of_not_wf (i := .jmp a) (regByteOk_eq_false ha) nofun nofun s

/-- With a register operand above 7 a conditional jump faults exactly when it is taken. -/
theorem raisesOutOfBounds_jeq (ha : a.toNat > 7) (s : State) :
    RaisesOutOfBounds (.jeq a) s ↔ Flags.equalSet s.fl = true := by
  rcases execJeq_cases a s with ⟨hE, he⟩ | ⟨hE, he⟩
  · have hcongr := raisesOutOfBounds_congr (i := .jeq a) (j := .jmp a) he
    exact iff_of_true (hcongr.2 (raisesOutOfBounds_jmp ha s)) hE
  · exact iff_of_false (not_raisesOutOfBounds_of_advance he) (by simp [hE])

theorem raisesOutOfBounds_jne (ha : a.toNat > 7) (s : State) :
    RaisesOutOfBounds (.jne a) s ↔ Flags.equalSet s.fl = false := by
  rcases execJne_cases a s with ⟨hE, he⟩ | ⟨hE, he⟩
  · have hcongr := raisesOutOfBounds_congr (i := .jne a) (j := .jmp a) he
    exact iff_of_true (hcongr.2 (raisesOutOfBounds_jmp ha s)) hE
  · exact iff_of_false (not_raisesOutOfBounds_of_advance he) (by simp [hE])

/-- Three bytes decode to the row of the first, and what the row has no operand for is left over. -/
theorem decode_opc (o : Op) (a b : Byte) :
    decode [opc o, a, b] = .ok (o.instr a b, [a, b].drop (o.length - 1)) := by
  have h := decodeWith_row opc_valid o a b ([a, b].drop (o.length - 1))
  rwa [List.take_append_drop] at h

/-- Settles O45: decoding does not look at the register bytes, and `raisesOutOfBounds_of_not_wf` covers every
instruction but the conditional jumps. -/
theorem registerOperandNotMasked : Obligations.RegisterOperandNotMasked := by
  refine ⟨fun i a h => regIndex_eq_some.2 h, fun a b s ha =>
    ⟨fun o => decode_opc o a b, fun i hi => ?_, raisesOutOfBounds_jeq ha s, raisesOutOfBounds_jne ha s⟩⟩
  have hbad : i.wf = false ∧ i.op ≠ .jeq ∧ i.op ≠ .jne := by
    revert i
    simp [Instr.wf, regByteOk_eq_false ha]
  obtain ⟨hwf, hjeq, hjne⟩ := hbad
  exact raisesOutOfBounds_of_not_wf hwf hjeq hjne s

end Sys2Proof.Machine
end

section
/-! The cycle (spec/40_loop_and_system.md R110 to R122): what a cycle does by where its pc is and by the opcode byte
that stands there, and the ends it can have. -/

namespace Sys2Proof.Machine

open Sys2Proof.Claims

variable {s t : State} {i : Instr} {o : Op} {byte : Byte}

/-! ### Fetch and decode (R111, R113, R118) -/

theorem State.fetchDecode_of_opcodeIs (h : OpcodeIs s o) : ∃ i : Instr, i.op = o ∧ s.fetchDecode = .ok i := by
  obtain ⟨hpc, hbyte⟩ := State.byteAt_eq_some.1 h
  have ho : Op.ofByte opc s.opcodeByte = some o := (Op.ofByte_eq_some opc_valid).2 hbyte.symm
  rcases s.fetchDecode_cases with ⟨hgt, -⟩ | ⟨-, hnone, -⟩ | ⟨o', -, ho', hf⟩
  · omega
  · cases ho.symm.trans hnone
  · cases ho.symm.trans ho'
    exact ⟨_, Op.instr_op o _ _, hf⟩

theorem State.fetchDecode_of_no_row (hbyte : s.byteAt s.pc.toNat = some byte) (hnone : ∀ o : Op, opc o ≠ byte) :
    s.fetchDecode = .error (.unsupportedOpcode s.pc byte) := by
  obtain ⟨hpc, rfl⟩ := State.byteAt_eq_some.1 hbyte
  rcases s.fetchDecode_cases with ⟨hgt, -⟩ | ⟨-, -, hf⟩ | ⟨o, -, ho, -⟩
  · omega
  · exact hf
  · exact absurd ((Op.ofByte_eq_some opc_valid).1 ho) (hnone o)

/-- Settles O13: the byte has a row, which both states decode to, or it has none. -/
theorem decodeReadsOnlyTheOpcode : Obligations.DecodeReadsOnlyTheOpcode := by
  intro s t byte _ _ hs ht
  by_cases hrow : ∃ o, opc o = byte
  · obtain ⟨o, rfl⟩ := hrow
    obtain ⟨i, hi, hfi⟩ := State.fetchDecode_of_opcodeIs hs
    obtain ⟨j, hj, hfj⟩ := State.fetchDecode_of_opcodeIs ht
    exact .inl ⟨o, i, j, rfl, hi, hj, hfi, hfj⟩
  · have hnone := not_exists.1 hrow
    exact .inr ⟨hnone, State.fetchDecode_of_no_row hs hnone, State.fetchDecode_of_no_row ht hnone⟩

/-- Settles O17: NOP has the byte 0, so a byte of no row is nonzero. -/
theorem unsupportedOpcodeHalts : Obligations.UnsupportedOpcodeHalts := by
  intro s byte hrun hbyte hnone
  have hfault := step_of_fetchDecode_error hrun (State.fetchDecode_of_no_row hbyte hnone)
  exact ⟨(hnone .nop).symm, _, hfault, faultTaken_raise s _⟩

/-! ### The bytes that exist at the pc (R110, R112) -/

/-- What follows an instruction does not change how its bytes decode. -/
theorem decode_append {bytes rest : List Byte} (h : decode bytes = .ok (i, rest)) (extra : List Byte) :
    decode (bytes ++ extra) = .ok (i, rest ++ extra) := by
  obtain ⟨o, a, b, rfl, rfl⟩ := decodeWith_ok_cases opc_valid h
  rw [List.cons_append, List.append_assoc]
  exact decodeWith_row opc_valid o a b (rest ++ extra)

/-- The eager fetch reads the bytes that exist, and the filler stands after them. -/
theorem State.fetchBytes_eq_append (hpc : s.pc.toNat ≤ 255) (filler : Byte) : ∃ extra, s.fetchBytes filler =
    [s.pc.toNat, s.pc.toNat + 1, s.pc.toNat + 2].filterMap s.byteAt ++ extra := by
  by_cases h2 : s.pc.toNat + 2 ≤ 255
  · have h1 : s.pc.toNat + 1 ≤ 255 := by omega
    exact ⟨[], by simp [State.fetchBytes, State.byteAt_of_le hpc, State.byteAt_of_le h1, State.byteAt_of_le h2]⟩
  · have h2' : 255 < s.pc.toNat + 2 := by omega
    by_cases h1 : s.pc.toNat + 1 ≤ 255
    · exact ⟨[filler],
        by simp [State.fetchBytes, State.byteAt_of_le hpc, State.byteAt_of_le h1, State.byteAt_of_gt h2']⟩
    · have h1' : 255 < s.pc.toNat + 1 := by omega
      exact ⟨[filler, filler],
        by simp [State.fetchBytes, State.byteAt_of_le hpc, State.byteAt_of_gt h1', State.byteAt_of_gt h2']⟩

/-- Settles O14: the bytes that exist decode as the three fetched bytes do. -/
theorem stepRunsDecodedInstruction : Obligations.StepRunsDecodedInstruction := by
  intro s i rest hrun hpc hdec
  obtain ⟨extra, hbytes⟩ := State.fetchBytes_eq_append hpc 0
  exact eagerBytesBeyondMemoryIgnored s 0 i (rest ++ extra) hrun hpc (hbytes ▸ decode_append hdec extra)

/-! ### The ends of a cycle (R115, R122) -/

/-- Settles O20, by the effects of a cycle and, for one that executes, `Effect.run_err_cases`. -/
theorem stepIsTotal : Obligations.StepIsTotal := by
  intro s hrun herr
  obtain ⟨t, ht⟩ := step_next s
  refine ⟨t, ht, ?_⟩
  cases step_effect ht with
  | idle hhalted => cases hrun.symm.trans hhalted
  | pcFault => exact .inr (.inr (.inl (faultTaken_raise s _)))
  | opcodeFault byte => exact .inr (.inr (.inr ⟨byte, faultTaken_raise s _⟩))
  | executed i _ _ _ hop heff =>
    rcases heff.run_err_cases with rfl | ⟨rfl, rfl⟩ | ⟨hrun', herr'⟩
    · exact .inr (.inr (.inl (faultTaken_raise s _)))
    · exact .inr (.inl ⟨hop, rfl, herr, rfl, rfl, rfl, rfl, rfl⟩)
    · exact .inl ⟨hrun'.trans hrun, herr'.trans herr⟩

/-- An instruction that records a fault has no other effect. -/
theorem Effect.eq_raise_of_err (h : Effect s i t) (herr : s.err = .none) (hne : t.err ≠ .none) :
    t = s.raise (.outOfBounds s.pc) := by
  rcases h.run_err_cases with hfault | ⟨-, rfl⟩ | ⟨-, herr'⟩
  · exact hfault
  · exact absurd herr hne
  · exact absurd (herr'.trans herr) hne

/-- Settles O21, by `Effect.eq_raise_of_err` and the effects of a cycle. -/
theorem faultsArePrecise : Obligations.FaultsArePrecise := by
  refine ⟨fun i s t herr h hne => ?_, fun s t herr h hne => ?_⟩
  · obtain rfl := (exec_effect h).eq_raise_of_err herr hne
    exact faultTaken_raise s _
  · cases step_effect h with
    | idle => exact absurd herr hne
    | pcFault | opcodeFault => exact faultTaken_raise s _
    | executed i _ _ _ _ heff =>
      obtain rfl := heff.eq_raise_of_err herr hne
      exact faultTaken_raise s _

/-! ### The PC check (R111) -/

theorem step_of_pc_gt (hrun : s.run = .running) (hpc : 255 < s.pc.toNat) :
    step s = .next (s.raise (.outOfBounds s.pc)) :=
  step_of_fetchDecode_error hrun (if_pos hpc)

/-- After a completed instruction of row `o` the pc stands behind its last byte: every row but HLT and the control
transfers, and JEQ and JNE where they do not branch (R28, R174, R175). -/
def FallsThrough (s : State) : Op → Prop
  | .hlt | .call | .ret | .jmp => False
  | .jeq => Flags.equalSet s.fl = false
  | .jne => Flags.equalSet s.fl = true
  | .nop | .ldi | .prn | .add | .mul | .cmp | .push | .pop => True

theorem fallsThrough_of_ne (hhlt : o ≠ .hlt) (hcall : o ≠ .call) (hret : o ≠ .ret) (hjmp : o ≠ .jmp)
    (hjeq : o ≠ .jeq) (hjne : o ≠ .jne) : FallsThrough s o := by
  cases o with
  | nop | ldi | prn | add | mul | cmp | push | pop => trivial
  | hlt | call | ret | jmp | jeq | jne => contradiction

theorem pc_toNat_of_fallsThrough (h : PcRule s t i) (hi : FallsThrough s i.op) :
    t.pc.toNat = s.pc.toNat + i.op.length := by
  cases i with
  | nop | ldi | prn | add | mul | cmp | push | pop => exact h
  | hlt | call | ret | jmp => exact hi.elim
  | jeq a =>
    have hE : Flags.equalSet s.fl = false := hi
    rwa [PcRule, if_neg (by simp [hE])] at h
  | jne a =>
    have hE : Flags.equalSet s.fl = true := hi
    rwa [PcRule, if_pos hE] at h

/-- A cycle that executes such an instruction and records no fault leaves the core Running behind it. -/
theorem step_of_fallsThrough (hrun : s.run = .running) (hop : OpcodeIs s o) (ho : FallsThrough s o)
    (h : step s = .next t) (herr : t.err = .none) :
    t.run = .running ∧ t.pc.toNat = s.pc.toNat + o.length := by
  obtain ⟨hpc, -⟩ := State.byteAt_eq_some.1 hop
  obtain ⟨i, rfl, hf⟩ := State.fetchDecode_of_opcodeIs hop
  have heff := exec_effect ((step_of_fetchDecode_ok hrun hf).symm.trans h)
  constructor
  · rcases heff.run_err_cases with rfl | ⟨rfl, -⟩ | ⟨hkept, -⟩
    · cases herr
    · exact ho.elim
    · exact hkept.trans hrun
  · rcases heff.pcRule hpc with rfl | hrule
    · cases herr
    · exact pc_toNat_of_fallsThrough hrule ho

/-- Settles O16: an instruction that ends at address 255, and a branch not taken at 254 or 255, leaves the pc above
255, where the next cycle fails the PC check. -/
theorem pcCheckFaults : Obligations.PcCheckFaults := by
  refine ⟨fun s hrun hpc => ⟨_, step_of_pc_gt hrun hpc, faultTaken_raise s _⟩,
    fun s t o hrun _ _ hop hend h herr => ?_⟩
  have hpast : FallsThrough s o ∧ 255 < s.pc.toNat + o.length := by
    rcases hend with ⟨hlast, hhlt, hcall, hret, hjmp, hjeq, hjne⟩ | ⟨hlast, ⟨rfl, hE⟩ | ⟨rfl, hE⟩⟩
    · exact ⟨fallsThrough_of_ne hhlt hcall hret hjmp hjeq hjne, by omega⟩
    · exact ⟨hE, Nat.add_le_add_right hlast 2⟩
    · exact ⟨hE, Nat.add_le_add_right hlast 2⟩
  obtain ⟨ho, hgt⟩ := hpast
  obtain ⟨hrun', hpc'⟩ := step_of_fallsThrough hrun hop ho h herr
  exact ⟨hrun', hpc', _, step_of_pc_gt hrun' (hpc' ▸ hgt), faultTaken_raise t _⟩

/-! ### NOP and HLT (R116, R117) -/

/-- The whole effect of NOP: the pc alone changes. -/
theorem advance_one_frame (hpc : s.pc.toNat ≤ 255) : RegsKept [] s (s.advance 1) ∧ MemKept s (s.advance 1) ∧
    ControlKept s (s.advance 1) ∧ (s.advance 1).pc.toNat = s.pc.toNat + 1 :=
  ⟨fun _ _ => rfl, fun _ => rfl, ⟨rfl, rfl, rfl, rfl⟩, State.advance_pc_toNat (by omega)⟩

/-- Settles O31: the byte 0 is NOP's opcode, so the cycle is NOP's execution. -/
theorem nopAdvancesByOne : Obligations.NopAdvancesByOne := by
  refine ⟨fun s hpc => ⟨_, rfl, advance_one_frame hpc⟩, fun s hrun hbyte => ?_⟩
  obtain ⟨hpc, -⟩ := State.byteAt_eq_some.1 hbyte
  have hstep : step s = .next (s.advance 1) := step_of_opcodeIs (o := .nop) hrun hbyte
  obtain ⟨hregs, hmem, hcontrol, hpc'⟩ := advance_one_frame hpc
  exact ⟨_, hstep, hregs, hmem, hcontrol, hpc', fun h255 =>
    ⟨_, step_of_pc_gt hrun (by omega), faultTaken_raise _ _⟩⟩

/-- Settles O32. -/
theorem hltHaltsInPlace : Obligations.HltHaltsInPlace := fun s =>
  ⟨s.halt, rfl, rfl, rfl, rfl, rfl, rfl, fun _ _ => rfl, fun _ => rfl, step_of_halted rfl⟩

end Sys2Proof.Machine
end

section
/-! Halted is terminal (spec/40_loop_and_system.md R120, 10_state.md R43 (f)): cycles change nothing, and of the host's
moves only reset makes the core Running. -/

namespace Sys2Proof.Machine

variable {s t : State} {x y : Session} {m : Move}

theorem runFrom_of_halted (hrun : s.run = .halted) (k : Nat) : runFrom k s = .next s := by
  induction k with
  | zero => exact runFrom_zero s
  | succ k ih => rw [runFrom_succ k (step_of_halted hrun), ih]

/-! ### The moves of a session (70_reset_and_hazards.md R226) -/

theorem State.loadProgram_run (s : State) (program : List Byte) : (s.loadProgram program).run = s.run := by
  simp [State.loadProgram]

theorem load_eq_next {program : List Byte} :
    load program s = .next t ↔ program.length ≤ Config.memSize ∧ t = s.loadProgram program := by
  unfold load
  split <;> simp_all [eq_comm]

theorem Session.lift_eq_next {phase : Phase} {r : StepOutcome} :
    Session.lift phase r = .next y ↔ y.phase = phase ∧ r = .next y.core := by
  obtain ⟨p, c⟩ := y
  cases r with
  | next u => simp [Session.lift, eq_comm]
  | fault | refused => simp [Session.lift]

/-- Everything a move that is answered can be: it was made in its phase, and the core has changed by it alone. -/
theorem Session.move_cases (h : x.move m = .next y) :
    (∃ fl, m = .reset fl ∧ y = ⟨.afterReset, State.resetWith fl⟩) ∨
    (∃ program, m = .load program ∧ x.phase = .afterReset ∧ y.phase = .loaded ∧
      load program x.core = .next y.core) ∨
    (m = .start ∧ x.phase = .loaded ∧ y = ⟨.started, x.core⟩) ∨
    (m = .cycle ∧ x.phase = .started ∧ y.phase = .started ∧ step x.core = .next y.core) := by
  obtain ⟨phase, core⟩ := x
  cases m with
  | reset fl => exact .inl ⟨fl, rfl, (Host.Outcome.next.inj h).symm⟩
  | load program =>
    cases phase with
    | afterReset => exact .inr (.inl ⟨program, rfl, rfl, Session.lift_eq_next.1 h⟩)
    | loaded | started => cases h
  | start =>
    cases phase with
    | loaded => exact .inr (.inr (.inl ⟨rfl, rfl, (Host.Outcome.next.inj h).symm⟩))
    | afterReset | started => cases h
  | cycle =>
    cases phase with
    | started => exact .inr (.inr (.inr ⟨rfl, rfl, Session.lift_eq_next.1 h⟩))
    | afterReset | loaded => cases h

/-- Settles O18, by `runFrom_of_halted` and `Session.move_cases`. -/
theorem haltedIsTerminal : Obligations.HaltedIsTerminal := by
  refine ⟨fun k s hrun => runFrom_of_halted hrun k, fun x y m hrun h hreset => ?_⟩
  rcases Session.move_cases h with ⟨fl, hm, -⟩ | ⟨program, -, -, -, hload⟩ | ⟨-, -, rfl⟩ | ⟨-, -, -, hstep⟩
  · exact absurd hm (hreset fl)
  · obtain ⟨-, hcore⟩ := load_eq_next.1 hload
    rw [hcore, State.loadProgram_run, hrun]
  · exact hrun
  · rwa [← Host.Outcome.next.inj ((step_of_halted hrun).symm.trans hstep)]

end Sys2Proof.Machine
end

section
/-! Load immediate and print (spec/41_load_and_print.md R130 to R132): each is its effect with the frame of that
effect, or the fault. -/

namespace Sys2Proof.Machine

open Sys2Proof.Claims

variable {s : State} {i : Instr}

theorem raisesOutOfBounds_of_exec (h : exec i s = .next (s.raise (.outOfBounds s.pc))) : RaisesOutOfBounds i s :=
  ⟨_, h, faultTaken_raise s _⟩

/-- The frame of a register write that ends an instruction of length `n`. -/
theorem setReg_advance_frame {n : Nat} (hpc : s.pc.toNat + n < 512) (d : RegIndex) (v : Byte) :
    RegsKept [d] s ((s.setReg d v).advance n) ∧ MemKept s ((s.setReg d v).advance n) ∧
    ControlKept s ((s.setReg d v).advance n) ∧ ((s.setReg d v).advance n).pc.toNat = s.pc.toNat + n :=
  ⟨fun _ hj => s.reg_setReg_ne v (List.ne_of_not_mem_cons hj), fun _ => rfl, ⟨rfl, rfl, rfl, rfl⟩,
    State.advance_pc_toNat hpc⟩

/-- Settles O33: the cases of `execLdi_cases` are those of the statement. -/
theorem ldiWritesImmediate : Obligations.LdiWritesImmediate := by
  intro a b s
  rcases execLdi_cases a b s with ⟨d, hpc, hd, he⟩ | ⟨hfault, he⟩
  · refine ⟨fun d' _ hd' => ?_, fun hbad => by omega⟩
    obtain rfl : d = d' := Fin.ext (hd.symm.trans hd')
    exact ⟨_, he, s.reg_setReg_same d b, setReg_advance_frame (by omega) d b⟩
  · exact ⟨fun d hpc hd => by omega, fun _ => raisesOutOfBounds_of_exec he⟩

/-- Settles O34: the cases of `execPrn_cases` are those of the statement. -/
theorem prnEmitsRegister : Obligations.PrnEmitsRegister := by
  intro a s
  rcases execPrn_cases a s with ⟨r, hpc, hr, he⟩ | ⟨hfault, he⟩
  · refine ⟨fun r' _ hr' => ?_, fun hbad => by omega⟩
    obtain rfl : r = r' := Fin.ext (hr.symm.trans hr')
    have hpc' : ((s.emit (s.reg r)).advance 2).pc.toNat = s.pc.toNat + 2 :=
      State.advance_pc_toNat (s := s.emit (s.reg r)) (by rw [State.emit_pc]; omega)
    exact ⟨_, he, rfl, fun _ _ => rfl, fun _ => rfl, rfl, rfl, rfl, hpc'⟩
  · exact ⟨fun r hpc hr => by omega, fun _ => raisesOutOfBounds_of_exec he⟩

end Sys2Proof.Machine
end

section
/-! The frame of the register file (spec/42_alu.md R140, 43_stack.md R165): one case split over the effects of an
instruction. -/

namespace Sys2Proof.Machine

open Sys2Proof.Claims

variable {s t : State} {i : Instr} {j : RegIndex}

theorem State.decSp_reg_ne (h : s.decSp = some t) (hj : j ≠ 7) : t.reg j = s.reg j := by
  rw [State.decSp_eq_setReg h, State.reg_setReg_ne s _ hj]

theorem State.incSp_reg_ne (h : s.incSp = some t) (hj : j ≠ 7) : t.reg j = s.reg j := by
  rw [State.incSp_eq_setReg h, State.reg_setReg_ne s _ hj]

/-- A register that is not the one a byte names keeps its value when that one is written. -/
theorem State.reg_setReg_of_operand_ne {a : Byte} {d : RegIndex} (ha : a.toNat = d) (hj : ¬ a.toNat = j) (v : Byte) :
    (s.setReg d v).reg j = s.reg j :=
  s.reg_setReg_ne v fun e => hj (e ▸ ha)

theorem Effect.reg_eq (h : Effect s i t) (hj : ¬ WritesReg j i) : t.reg j = s.reg j := by
  cases h with
  | nop | hlt | prn | cmp | jmp | jeqTaken | jeqNot | jneTaken | jneNot | fault => rfl
  | ldi _ _ _ _ ha | add _ _ _ _ _ ha | mul _ _ _ _ _ ha => exact State.reg_setReg_of_operand_ne ha hj _
  | push _ _ _ _ _ hu | call _ _ _ _ _ hu => exact (State.decSp_reg_ne hu hj :)
  | ret _ hu => exact (State.incSp_reg_ne hu hj :)
  | pop _ _ _ _ ha hu =>
    obtain ⟨hja, hj7⟩ := not_or.1 hj
    exact (State.incSp_reg_ne hu hj7).trans (State.reg_setReg_of_operand_ne ha hja _)

/-- Settles O26: `Effect.reg_eq` for the effect that `exec` answers. -/
theorem registersKeptButDestination : Obligations.RegistersKeptButDestination :=
  fun _ _ _ _ hj h => (exec_effect h).reg_eq hj

end Sys2Proof.Machine
end

section
/-! The ALU instructions (spec/42_alu.md R140 to R146). ADD, MUL and CMP share one course, `aluInstruction`: it
completes with a register value or with flags, by what `alu` answers, or it faults. -/

namespace Sys2Proof.Machine

open Sys2Proof.Claims

variable {s : State} {op : AluOp} {a b v : Byte} {d r : RegIndex}

/-! ### The shared course -/

theorem aluInstruction_of_guards (hpc : s.pc.toNat ≤ 253) (ha : a.toNat = d) (hb : b.toNat = r) :
    aluInstruction op a b s = .next ((s.writeAlu d (alu op (s.reg d) (s.reg r))).advance 3) := by
  rcases aluInstruction_cases a b s op with ⟨d', r', -, ha', hb', he⟩ | ⟨hfault, -⟩
  · cases Fin.ext (ha.symm.trans ha')
    cases Fin.ext (hb.symm.trans hb')
    exact he
  · omega

theorem aluInstruction_eq_raise (hbad : s.pc.toNat ≥ 254 ∨ a.toNat > 7 ∨ b.toNat > 7) :
    aluInstruction op a b s = .next (s.raise (.outOfBounds s.pc)) := by
  rcases aluInstruction_cases a b s op with ⟨d, r, hpc, ha, hb, -⟩ | ⟨-, he⟩
  · omega
  · exact he

/-- Where `alu` answers a register value (ADD, MUL): the whole effect. -/
theorem aluInstruction_value (hv : alu op (s.reg d) (s.reg r) = .value v) (hpc : s.pc.toNat ≤ 253)
    (ha : a.toNat = d) (hb : b.toNat = r) :
    ∃ t, aluInstruction op a b s = .next t ∧ t.reg d = v ∧ RegsKept [d] s t ∧ t.mem = s.mem ∧ ControlKept s t ∧
      t.pc.toNat = s.pc.toNat + 3 := by
  have he := aluInstruction_of_guards (op := op) hpc ha hb
  rw [hv] at he
  obtain ⟨hregs, -, hcontrol, hpc'⟩ := setReg_advance_frame (s := s) (n := 3) (by omega) d v
  exact ⟨_, he, s.reg_setReg_same d v, hregs, rfl, hcontrol, hpc'⟩

/-- Where `alu` answers flags (CMP): the whole effect. -/
theorem aluInstruction_flags (hv : alu op (s.reg d) (s.reg r) = .flags v) (hpc : s.pc.toNat ≤ 253)
    (ha : a.toNat = d) (hb : b.toNat = r) :
    ∃ t, aluInstruction op a b s = .next t ∧ t.fl = v ∧ t.regs = s.regs ∧ t.mem = s.mem ∧ t.run = s.run ∧
      t.err = s.err ∧ t.out = s.out ∧ t.pc.toNat = s.pc.toNat + 3 := by
  have he := aluInstruction_of_guards (op := op) hpc ha hb
  rw [hv] at he
  have hpc' : ((s.setFlags v).advance 3).pc.toNat = s.pc.toNat + 3 :=
    State.advance_pc_toNat (s := s.setFlags v) (by rw [State.setFlags_pc]; omega)
  exact ⟨_, he, rfl, rfl, rfl, rfl, rfl, rfl, hpc'⟩

theorem regsKept_of_regs_eq {t : State} (h : t.regs = s.regs) : RegsKept [] s t := fun j _ => by
  rw [State.reg, h, State.reg]

/-! ### What CMP writes (R143, R145) -/

section
variable {x y : Byte}

theorem Flags.compare_of_eq (h : x.toNat = y.toNat) : Flags.compare x y = Flags.only Flags.bitE := if_pos h

theorem Flags.compare_of_gt (h : x.toNat > y.toNat) : Flags.compare x y = Flags.only Flags.bitG := by
  rw [Flags.compare, if_neg (by omega), if_pos h]

theorem Flags.compare_of_lt (h : x.toNat < y.toNat) : Flags.compare x y = Flags.only Flags.bitL := by
  rw [Flags.compare, if_neg (by omega), if_neg (by omega)]

/-- Which flag a comparison sets says how the unsigned values compare. -/
theorem Flags.compare_eq_only_iff :
    (Flags.compare x y = Flags.only Flags.bitE ↔ x.toNat = y.toNat) ∧
    (Flags.compare x y = Flags.only Flags.bitG ↔ x.toNat > y.toNat) ∧
    (Flags.compare x y = Flags.only Flags.bitL ↔ x.toNat < y.toNat) := by
  rcases lt_trichotomy x.toNat y.toNat with h | h | h
  · rw [Flags.compare_of_lt h]
    exact ⟨iff_of_false (by decide) (by omega), iff_of_false (by decide) (by omega), iff_of_true rfl h⟩
  · rw [Flags.compare_of_eq h]
    exact ⟨iff_of_true rfl h, iff_of_false (by decide) (by omega), iff_of_false (by decide) (by omega)⟩
  · rw [Flags.compare_of_gt h]
    exact ⟨iff_of_false (by decide) (by omega), iff_of_true rfl h, iff_of_false (by decide) (by omega)⟩

end

/-! ### The readings of a sum and a product (R145) -/

theorem ofNat_add_toNat_eq_ofInt_add_toInt (x y : Byte) :
    BitVec.ofNat 8 (x.toNat + y.toNat) = BitVec.ofInt 8 (x.toInt + y.toInt) := by
  rw [BitVec.ofNat_add, BitVec.ofInt_add, BitVec.ofInt_toInt, BitVec.ofInt_toInt, BitVec.ofNat_toNat,
    BitVec.ofNat_toNat, BitVec.setWidth_eq, BitVec.setWidth_eq]

theorem ofNat_mul_toNat_eq_ofInt_mul_toInt (x y : Byte) :
    BitVec.ofNat 8 (x.toNat * y.toNat) = BitVec.ofInt 8 (x.toInt * y.toInt) := by
  rw [BitVec.ofNat_mul, BitVec.ofInt_mul, BitVec.ofInt_toInt, BitVec.ofInt_toInt, BitVec.ofNat_toNat,
    BitVec.ofNat_toNat, BitVec.setWidth_eq, BitVec.setWidth_eq]

/-! ### The statements -/

/-- Settles O46: the three functions are what `alu` computes. -/
theorem aluIsPure : Obligations.AluIsPure := by
  refine ⟨fun o => by cases o <;> simp [Op.format],
    fun x y => BitVec.ofNat 8 (x.toNat + y.toNat), fun x y => BitVec.ofNat 8 (x.toNat * y.toNat), Flags.compare,
    fun a b d r s hpc ha hb => ⟨?_, ?_, ?_⟩⟩
  · exact aluInstruction_value (op := .add) rfl hpc ha hb
  · exact aluInstruction_value (op := .mul) rfl hpc ha hb
  · exact aluInstruction_flags (op := .cmp) rfl hpc ha hb

/-- Settles O47: the completed effects, and the two readings of their sum and product. -/
theorem signednessShowsOnlyInCmp : Obligations.SignednessShowsOnlyInCmp := by
  intro a b d r s hpc ha hb
  obtain ⟨t, hadd, hsum, -⟩ := aluInstruction_value (op := .add) rfl hpc ha hb
  obtain ⟨u, hmul, hprod, -⟩ := aluInstruction_value (op := .mul) rfl hpc ha hb
  obtain ⟨v, hcmp, hfl, -⟩ := aluInstruction_flags (op := .cmp) rfl hpc ha hb
  exact ⟨⟨t, hadd, hsum, hsum.trans (ofNat_add_toNat_eq_ofInt_add_toInt _ _)⟩,
    ⟨u, hmul, hprod, hprod.trans (ofNat_mul_toNat_eq_ofInt_mul_toInt _ _)⟩,
    ⟨v, hcmp, hfl ▸ Flags.compare_eq_only_iff⟩⟩

/-- Settles O35: the register write of `aluInstruction_value`; R144 holds since `alu` is given the values of `s`. -/
theorem addWrapsModulo256 : Obligations.AddWrapsModulo256 := by
  refine fun a b s => ⟨fun d r hpc ha hb => ?_, fun hbad =>
    raisesOutOfBounds_of_exec (i := .add a b) (aluInstruction_eq_raise hbad)⟩
  obtain ⟨t, he, hsum, hregs, hmem, hframe⟩ := aluInstruction_value (op := .add) rfl hpc ha hb
  exact ⟨t, he, by rw [hsum, BitVec.toNat_ofNat], hregs, memKept_of_mem_eq hmem, hframe⟩

/-- Settles O36, as O35 with the product. -/
theorem mulWrapsModulo256 : Obligations.MulWrapsModulo256 := by
  refine fun a b s => ⟨fun d r hpc ha hb => ?_, fun hbad =>
    raisesOutOfBounds_of_exec (i := .mul a b) (aluInstruction_eq_raise hbad)⟩
  obtain ⟨t, he, hprod, hregs, hmem, hframe⟩ := aluInstruction_value (op := .mul) rfl hpc ha hb
  exact ⟨t, he, by rw [hprod, BitVec.toNat_ofNat], hregs, memKept_of_mem_eq hmem, hframe⟩

/-- Settles O37: the flags of `aluInstruction_flags` by the three outcomes of `Flags.compare`. -/
theorem cmpSetsExactlyOneFlag : Obligations.CmpSetsExactlyOneFlag := by
  refine fun a b s => ⟨fun d r hpc ha hb => ?_, fun hbad =>
    raisesOutOfBounds_of_exec (i := .cmp a b) (aluInstruction_eq_raise hbad)⟩
  obtain ⟨t, he, hfl, hregs, hmem, hframe⟩ := aluInstruction_flags (op := .cmp) rfl hpc ha hb
  refine ⟨t, he, fun h => ?_, fun h => ?_, fun h => ?_, regsKept_of_regs_eq hregs, memKept_of_mem_eq hmem, hframe⟩
  · rw [hfl, Flags.compare_of_eq h]; rfl
  · rw [hfl, Flags.compare_of_gt h]; rfl
  · rw [hfl, Flags.compare_of_lt h]; rfl

end Sys2Proof.Machine
end

section
/-! The stack (spec/43_stack.md R160 to R165): PUSH and POP as their effects on SP, the registers and memory, the round
trip from one to the other, and the balance of SP over any sequence of stack instructions. -/

namespace Sys2Proof.Machine

open Sys2Proof.Claims

variable {s t u : State} {a v w : Byte} {d : RegIndex}

/-! ### SP after an update -/

theorem State.decSp_sp (h : s.decSp = some u) : u.sp = s.sp - 1 := by
  rw [State.decSp_eq_setReg h, State.sp_setReg_sp]

theorem State.decSp_sp_toNat_add_one (h : s.decSp = some u) : u.sp.toNat + 1 = s.sp.toNat := by
  have hsp := (State.decSp_eq_some.1 h).1
  have hdec := State.decSp_sp_toNat h
  omega

theorem State.incSp_sp_toNat (h : s.incSp = some u) : u.sp.toNat = s.sp.toNat + 1 := by
  obtain ⟨hsp, rfl⟩ := State.incSp_eq_some.1 h
  rw [State.sp_setReg_sp]
  bv_omega

/-- SP after the write of the register that operand byte `a` names: register 7 is SP itself (R23). -/
theorem State.sp_setReg_of_operand (ha : a.toNat = d) (s : State) (v : Byte) :
    (s.setReg d v).sp = if a.toNat = 7 then v else s.sp := by
  split
  · next h7 =>
    obtain rfl : d = 7 := Fin.ext (ha.symm.trans h7)
    exact s.sp_setReg_sp v
  · next h7 => exact State.reg_setReg_of_operand_ne ha h7 v

/-! ### PUSH (R161) -/

/-- The frame of a store at the decremented SP, the one of PUSH and CALL. -/
theorem decSp_writeByte_frame (hu : s.decSp = some u) (w : Byte) :
    RegsKept [7] s (u.writeByte u.sp w) ∧ MemKeptBut u.sp s (u.writeByte u.sp w) ∧
    ControlKept s (u.writeByte u.sp w) := by
  obtain rfl := State.decSp_eq_setReg hu
  exact ⟨fun _ hj => s.reg_setReg_ne _ (List.ne_of_not_mem_cons hj), memKeptBut_of_mem_eq_writeByte rfl,
    ⟨rfl, rfl, rfl, rfl⟩⟩

/-- Settles O38: the cases of `execPush_cases` are those of the statement. -/
theorem pushStoresBelowSp : Obligations.PushStoresBelowSp := by
  intro a s
  rcases execPush_cases a s with ⟨r, u, hpc, hr, hu, he⟩ | ⟨hfault, he⟩
  · have hsp := (State.decSp_eq_some.1 hu).1
    refine ⟨fun r' hwf _ hr' _ => ?_, fun hbad => by omega⟩
    obtain rfl : r = r' := Fin.ext (hr.symm.trans hr')
    have hwfu : Memory.wf u.mem = true := by rwa [State.decSp_mem hu]
    have hstored : (u.writeByte u.sp (u.reg r)).readByte u.sp = if r = 7 then u.sp else s.reg r := by
      rw [State.readByte_writeByte_same hwfu, State.decSp_reg hu, State.decSp_sp hu]
    obtain ⟨hregs, hmem, hcontrol⟩ := decSp_writeByte_frame hu (u.reg r)
    have hpcu : (u.writeByte u.sp (u.reg r)).pc = s.pc := (State.decSp_pc hu :)
    have hpc' : ((u.writeByte u.sp (u.reg r)).advance 2).pc.toNat = s.pc.toNat + 2 := by
      rw [State.advance_pc_toNat (by rw [hpcu]; omega), hpcu]
    exact ⟨_, he, (State.decSp_sp_toNat hu :), hstored, hregs, hmem, hcontrol, hpc'⟩
  · exact ⟨fun r _ hpc hr hsp => by omega, fun _ => raisesOutOfBounds_of_exec he⟩

/-! ### POP (R162) -/

/-- The frame of a register write followed by the increment of SP. -/
theorem setReg_incSp_advance_frame {n : Nat} (hu : (s.setReg d v).incSp = some u) (hpc : s.pc.toNat + n < 512) :
    RegsKept [d, 7] s (u.advance n) ∧ MemKept s (u.advance n) ∧ ControlKept s (u.advance n) ∧
    (u.advance n).pc.toNat = s.pc.toNat + n := by
  have hregs : RegsKept [d, 7] s (u.advance n) := fun j hj => by
    obtain ⟨hjd, hj7⟩ : j ≠ d ∧ j ≠ 7 := by simpa using hj
    exact (State.incSp_reg_ne hu hj7).trans (s.reg_setReg_ne v hjd)
  obtain rfl := State.incSp_eq_setReg hu
  exact ⟨hregs, fun _ => rfl, ⟨rfl, rfl, rfl, rfl⟩, State.advance_pc_toNat hpc⟩

/-- Settles O39: the cases of `execPop_cases`, and SP before the increment by whether the operand is register 7. -/
theorem popReadsAtSp : Obligations.PopReadsAtSp := by
  intro a s
  rcases execPop_cases a s with ⟨d, u, hpc, hd, hu, he⟩ | ⟨hfault, he⟩
  · have hrange := (State.incSp_eq_some.1 hu).1
    have hsp := State.incSp_sp_toNat hu
    rw [State.sp_setReg_of_operand hd] at hrange hsp
    obtain ⟨hregs, hframe⟩ := setReg_incSp_advance_frame (n := 2) hu (by omega)
    refine ⟨fun d' _ hd' h7 _ => ?_, fun _ ha _ => ?_, fun hbad => ?_⟩
    · obtain rfl : d = d' := Fin.ext (hd.symm.trans hd')
      have ha : a.toNat ≠ 7 := fun ha => h7 (Fin.ext (hd.symm.trans ha))
      rw [if_neg ha] at hsp
      exact ⟨_, he, (State.incSp_reg_ne hu h7).trans (s.reg_setReg_same d _), hsp, hregs, hframe⟩
    · obtain rfl : d = 7 := Fin.ext (hd.symm.trans ha)
      rw [if_pos ha] at hsp
      exact ⟨_, he, hsp, fun j hj => hregs j (by simpa using hj), hframe⟩
    · split at hrange <;> omega
  · have hbad : s.pc.toNat ≥ 255 ∨ a.toNat > 7 ∨ (a.toNat < 7 ∧ s.sp.toNat = 255) ∨
        (a.toNat = 7 ∧ (s.readByte s.sp).toNat = 255) := by
      rcases hfault with hpc | ha | ⟨d, hd, hsp⟩
      · omega
      · omega
      · rw [State.sp_setReg_of_operand hd] at hsp
        split at hsp <;> omega
    refine ⟨fun d hpc hd h7 hsp => ?_, fun hpc ha hbyte => by omega, fun _ => raisesOutOfBounds_of_exec he⟩
    have h7' : (d : Nat) ≠ 7 := fun h => h7 (Fin.ext h)
    omega

/-! ### PUSH and then POP (R164) -/

theorem controlKept_trans (h : ControlKept s t) (h' : ControlKept t u) : ControlKept s u := by
  obtain ⟨hrun, herr, hfl, hout⟩ := h
  obtain ⟨hrun', herr', hfl', hout'⟩ := h'
  exact ⟨hrun'.trans hrun, herr'.trans herr, hfl'.trans hfl, hout'.trans hout⟩

/-- Settles O49: O38, and then O39 at the state PUSH leaves, whose SP is where the value is. -/
theorem pushPopRoundTrip : Obligations.PushPopRoundTrip := by
  intro a b i j s hwf hpc ha hb hi hj hsp
  obtain ⟨t, hpush, htsp, hbyte, hregs, hmem, hcontrol, hpc'⟩ :=
    (pushStoresBelowSp a s).1 i hwf (by omega) ha hsp
  have htop : t.sp.toNat ≠ 255 := by
    have := s.sp.isLt
    omega
  obtain ⟨u, hpop, hpopped, husp, hregs', hmem', hcontrol', hpc''⟩ :=
    (popReadsAtSp b t).1 j (by omega) hb hj htop
  rw [if_neg hi] at hbyte
  have hbelow : t.sp = s.sp - 1 := by bv_omega
  have hrestored : u.sp = s.sp := by bv_omega
  have hkept : RegsKept [j] s u := fun k hk => by
    by_cases h7 : k = 7
    · rw [h7, State.sp_eq_reg, State.sp_eq_reg, hrestored]
    · exact (hregs' k (by simp [h7, List.ne_of_not_mem_cons hk])).trans (hregs k (by simp [h7]))
  rw [hbelow] at hpopped hbyte hmem
  exact ⟨t, u, hpush, hpop, hpopped.trans hbyte, hrestored, hkept, (hmem' _).trans hbyte,
    fun x hx => (hmem' x).trans (hmem x hx), controlKept_trans hcontrol hcontrol', by omega⟩

/-! ### The balance of SP over a sequence (R164) -/

variable {i : Instr} {is rest : List Instr}

/-- From `s` to `t` SP has lost one for each PUSH and CALL of `is` and gained one for each POP and RET. -/
def StackBalanced (is : List Instr) (s t : State) : Prop :=
  t.sp.toNat + is.countP (fun i => i.op = .push || i.op = .call) =
    s.sp.toNat + is.countP (fun i => i.op = .pop || i.op = .ret)

theorem StackBalanced.cons (h : StackBalanced [i] s u) (h' : StackBalanced rest u t) :
    StackBalanced (i :: rest) s t := by
  unfold StackBalanced at *
  rw [← List.singleton_append, List.countP_append, List.countP_append]
  omega

/-- A stack instruction that takes no fault moves SP by one. -/
theorem Effect.stackBalanced (h : Effect s i t) (hi : StackOp i) (herr : t.err = .none) :
    StackBalanced [i] s t := by
  cases h with
  | fault => cases herr
  | push _ _ u _ _ hu | call _ _ u _ _ hu => exact (State.decSp_sp_toNat_add_one hu :)
  | ret u hu => exact (State.incSp_sp_toNat hu :)
  | pop a d u _ hd hu =>
    have hsp := State.incSp_sp_toNat hu
    rw [State.sp_setReg_of_operand hd, if_neg hi] at hsp
    exact hsp
  | _ => exact hi.elim

/-- A fault record stays: no instruction clears ERR. -/
theorem Effect.err_eq_none (h : Effect s i t) (herr : t.err = .none) : s.err = .none := by
  rcases h.run_err_cases with rfl | ⟨-, rfl⟩ | ⟨-, hkept⟩
  · cases herr
  · exact herr
  · exact hkept.symm.trans herr

theorem execAll_cons_eq_next (h : execAll (i :: rest) s = .next t) :
    ∃ u, Effect s i u ∧ execAll rest u = .next t := by
  obtain ⟨u, hu⟩ := exec_next s i
  rw [execAll, hu] at h
  exact ⟨u, exec_effect hu, h⟩

theorem execAll_err_eq_none (herr : t.err = .none) : ∀ {s : State}, execAll is s = .next t → s.err = .none := by
  induction is with
  | nil =>
    intro s h
    cases h
    exact herr
  | cons i rest ih =>
    intro s h
    obtain ⟨u, heff, hrest⟩ := execAll_cons_eq_next h
    exact heff.err_eq_none (ih hrest)

theorem execAll_stackBalanced (herr : t.err = .none) :
    ∀ {s : State}, (∀ i ∈ is, StackOp i) → execAll is s = .next t → StackBalanced is s t := by
  induction is with
  | nil =>
    intro s _ h
    cases h
    rfl
  | cons i rest ih =>
    intro s hops h
    obtain ⟨hi, hrestOps⟩ := List.forall_mem_cons.1 hops
    obtain ⟨u, heff, hrest⟩ := execAll_cons_eq_next h
    exact (heff.stackBalanced hi (execAll_err_eq_none herr hrest)).cons (ih hrestOps hrest)

/-- Settles O50: no instruction of the sequence takes a fault, since a fault record would stay to the end. -/
theorem stackDepthBalance : Obligations.StackDepthBalance :=
  fun _ _ _ hops _ h herr => execAll_stackBalanced herr hops h

end Sys2Proof.Machine
end

section
/-! Control transfer (spec/44_control_transfer.md R171 to R177). JMP is the one jump through a register: a JEQ or JNE
that branches executes as the JMP with its operand, and one that does not only advances the pc. CALL stacks where RET
later finds it. -/

namespace Sys2Proof.Machine

open Sys2Proof.Claims

variable {s u : State} {a : Byte}

/-! ### Jumps (R173 to R175) -/

theorem jumpTo_frame (s : State) (v : Byte) :
    RegsKept [] s (s.jumpTo v) ∧ MemKept s (s.jumpTo v) ∧ ControlKept s (s.jumpTo v) :=
  ⟨fun _ _ => rfl, fun _ => rfl, ⟨rfl, rfl, rfl, rfl⟩⟩

/-- The frame of an advance, the whole effect of a branch not taken. -/
theorem advance_frame {n : Nat} (hpc : s.pc.toNat + n < 512) :
    (s.advance n).pc.toNat = s.pc.toNat + n ∧ RegsKept [] s (s.advance n) ∧ MemKept s (s.advance n) ∧
    ControlKept s (s.advance n) :=
  ⟨State.advance_pc_toNat hpc, fun _ _ => rfl, fun _ => rfl, ⟨rfl, rfl, rfl, rfl⟩⟩

/-- Settles O42: the cases of `execJmp_cases` are those of the statement. -/
theorem jmpGoesToRegister : Obligations.JmpGoesToRegister := by
  intro a s
  rcases execJmp_cases a s with ⟨r, hpc, hr, he⟩ | ⟨hfault, he⟩
  · refine ⟨fun r' _ hr' => ?_, fun hbad => by omega⟩
    obtain rfl : r = r' := Fin.ext (hr.symm.trans hr')
    exact ⟨_, he, s.jumpTo_pc_toNat _, jumpTo_frame s _⟩
  · exact ⟨fun r hpc hr => by omega, fun _ => raisesOutOfBounds_of_exec he⟩

theorem exec_jeq_of_equal (hE : Flags.equalSet s.fl = true) (a : Byte) : exec (.jeq a) s = exec (.jmp a) s := by
  rcases execJeq_cases a s with ⟨-, he⟩ | ⟨hE', -⟩
  · exact he
  · cases hE.symm.trans hE'

theorem exec_jeq_of_not_equal (hE : Flags.equalSet s.fl = false) (a : Byte) :
    exec (.jeq a) s = .next (s.advance 2) := by
  rcases execJeq_cases a s with ⟨hE', -⟩ | ⟨-, he⟩
  · cases hE.symm.trans hE'
  · exact he

theorem exec_jne_of_equal (hE : Flags.equalSet s.fl = true) (a : Byte) :
    exec (.jne a) s = .next (s.advance 2) := by
  rcases execJne_cases a s with ⟨hE', -⟩ | ⟨-, he⟩
  · cases hE.symm.trans hE'
  · exact he

theorem exec_jne_of_not_equal (hE : Flags.equalSet s.fl = false) (a : Byte) :
    exec (.jne a) s = exec (.jmp a) s := by
  rcases execJne_cases a s with ⟨-, he⟩ | ⟨hE', -⟩
  · exact he
  · cases hE.symm.trans hE'

/-- Settles O43: with bit E set O42 for the JMP that JEQ then is, with bit E clear the advance. -/
theorem jeqBranchesOnEqual : Obligations.JeqBranchesOnEqual := by
  intro a s
  obtain ⟨hjump, hfault⟩ := jmpGoesToRegister a s
  refine ⟨fun r hE hpc hr => ?_, fun hE hbad => ?_, fun hE hpc => ?_⟩
  · rw [exec_jeq_of_equal hE]
    exact hjump r hpc hr
  · exact (raisesOutOfBounds_congr (exec_jeq_of_equal hE a)).2 (hfault hbad)
  · exact ⟨_, exec_jeq_of_not_equal hE a, advance_frame (by omega)⟩

/-- Settles O44: O43 with the two values of bit E exchanged. -/
theorem jneBranchesOnNotEqual : Obligations.JneBranchesOnNotEqual := by
  intro a s
  obtain ⟨hjump, hfault⟩ := jmpGoesToRegister a s
  refine ⟨fun r hE hpc hr => ?_, fun hE hbad => ?_, fun hE hpc => ?_⟩
  · rw [exec_jne_of_not_equal hE]
    exact hjump r hpc hr
  · exact (raisesOutOfBounds_congr (exec_jne_of_not_equal hE a)).2 (hfault hbad)
  · exact ⟨_, exec_jne_of_equal hE a, advance_frame (by omega)⟩

/-! ### JEQ against JNE (R176) -/

/-- On one state bit E sends exactly one of JEQ and JNE to the register. -/
theorem jeq_jne_opposite {k : RegIndex} (hpc : s.pc.toNat ≤ 254) (ha : a.toNat = k) :
    ∃ t u, exec (.jeq a) s = .next t ∧ exec (.jne a) s = .next u ∧
      ((t.pc.toNat = (s.reg k).toNat ∧ u.pc.toNat = s.pc.toNat + 2 ∧ Flags.equalSet s.fl = true) ∨
       (t.pc.toNat = s.pc.toNat + 2 ∧ u.pc.toNat = (s.reg k).toNat ∧ Flags.equalSet s.fl = false)) := by
  obtain ⟨hjeqTaken, -, hjeqNot⟩ := jeqBranchesOnEqual a s
  obtain ⟨hjneTaken, -, hjneNot⟩ := jneBranchesOnNotEqual a s
  cases hE : Flags.equalSet s.fl with
  | true =>
    obtain ⟨t, ht, htpc, -⟩ := hjeqTaken k hE hpc ha
    obtain ⟨u, hu, hupc, -⟩ := hjneNot hE (by omega)
    exact ⟨t, u, ht, hu, .inl ⟨htpc, hupc, rfl⟩⟩
  | false =>
    obtain ⟨t, ht, htpc, -⟩ := hjeqNot hE (by omega)
    obtain ⟨u, hu, hupc, -⟩ := hjneTaken k hE hpc ha
    exact ⟨t, u, ht, hu, .inr ⟨htpc, hupc, rfl⟩⟩

/-- CMP leaves bit E set exactly for equal values (R143). -/
theorem Flags.equalSet_compare (x y : Byte) : Flags.equalSet (Flags.compare x y) = true ↔ x = y := by
  rw [← BitVec.toNat_inj]
  rcases lt_trichotomy x.toNat y.toNat with h | h | h
  · rw [Flags.compare_of_lt h]
    exact iff_of_false (by decide) (by omega)
  · rw [Flags.compare_of_eq h]
    exact iff_of_true (by decide) h
  · rw [Flags.compare_of_gt h]
    exact iff_of_false (by decide) (by omega)

/-- Settles O48: `jeq_jne_opposite`, on any state and on the one CMP leaves, whose bit E says whether the values were
equal. -/
theorem jeqJneAreComplements : Obligations.JeqJneAreComplements := by
  refine ⟨fun a k s hpc ha => jeq_jne_opposite hpc ha, fun a b c d r k s hpc ha hb hc => ?_⟩
  obtain ⟨t, hcmp, hfl, hregs, -, -, -, -, hpc'⟩ := aluInstruction_flags (s := s) (op := .cmp) rfl (by omega) ha hb
  have hk : t.reg k = s.reg k := regsKept_of_regs_eq hregs k List.not_mem_nil
  have hE : Flags.equalSet t.fl = true ↔ s.reg d = s.reg r := by rw [hfl, Flags.equalSet_compare]
  obtain ⟨u, v, hu, hv, hways⟩ := jeq_jne_opposite (s := t) (by omega) hc
  rw [hk] at hways
  refine ⟨t, u, v, hcmp, hu, hv, ?_⟩
  rcases hways with ⟨hupc, hvpc, hset⟩ | ⟨hupc, hvpc, hclear⟩
  · exact ⟨fun _ => ⟨hupc, hvpc⟩, fun hne => absurd (hE.1 hset) hne⟩
  · exact ⟨fun heq => by simp [hE.2 heq] at hclear, fun _ => ⟨hupc, hvpc⟩⟩

/-! ### CALL and RET (R171, R172, R177) -/

/-- Settles O40: the cases of `execCall_cases` are those of the statement. -/
theorem callStacksReturnAddress : Obligations.CallStacksReturnAddress := by
  intro a s
  rcases execCall_cases a s with ⟨r, u, hpc, hr, hu, he⟩ | ⟨hfault, he⟩
  · have hsp := (State.decSp_eq_some.1 hu).1
    refine ⟨fun r' hwf _ hr' _ => ?_, fun hbad => by omega⟩
    obtain rfl : r = r' := Fin.ext (hr.symm.trans hr')
    have hwfu : Memory.wf u.mem = true := by rwa [State.decSp_mem hu]
    have hra : (BitVec.ofNat 8 (s.pc.toNat + 2)).toNat = s.pc.toNat + 2 := by
      rw [BitVec.toNat_ofNat]
      omega
    generalize BitVec.ofNat 8 (s.pc.toNat + 2) = ra at he hra
    have hstored : ((u.writeByte u.sp ra).readByte u.sp).toNat = s.pc.toNat + 2 := by
      rw [State.readByte_writeByte_same hwfu, hra]
    have htarget : ((u.writeByte u.sp ra).jumpTo (u.reg r)).pc.toNat = (if r = 7 then u.sp else s.reg r).toNat := by
      rw [State.jumpTo_pc_toNat, State.decSp_reg hu, State.decSp_sp hu]
    exact ⟨_, he, (State.decSp_sp_toNat hu :), hstored, htarget, decSp_writeByte_frame hu ra⟩
  · exact ⟨fun r _ hpc hr hsp => by omega, fun _ => raisesOutOfBounds_of_exec he⟩

/-- The frame of RET: only SP and the pc change. -/
theorem incSp_jumpTo_frame (hu : s.incSp = some u) (v : Byte) :
    RegsKept [7] s (u.jumpTo v) ∧ MemKept s (u.jumpTo v) ∧ ControlKept s (u.jumpTo v) := by
  obtain rfl := State.incSp_eq_setReg hu
  exact ⟨fun _ hj => s.reg_setReg_ne _ (List.ne_of_not_mem_cons hj), fun _ => rfl, ⟨rfl, rfl, rfl, rfl⟩⟩

/-- Settles O41: the cases of `execRet_cases` are those of the statement. -/
theorem retPopsIntoPc : Obligations.RetPopsIntoPc := by
  intro s
  rcases execRet_cases s with ⟨u, hu, he⟩ | ⟨hsp, he⟩
  · have hsp := (State.incSp_eq_some.1 hu).1
    exact ⟨fun _ => ⟨_, he, u.jumpTo_pc_toNat _, (State.incSp_sp_toNat hu :), incSp_jumpTo_frame hu _⟩,
      fun hbad => absurd hbad hsp⟩
  · exact ⟨fun hne => absurd hsp hne, fun _ => raisesOutOfBounds_of_exec he⟩

/-- Settles O51: O40 for the CALL, whose guards hold since it took no fault, and then O41 at the state RET finds, whose
SP is below 255 because it is one lower than before the CALL. -/
theorem retReturnsAfterCall : Obligations.RetReturnsAfterCall := by
  intro a s t u hwf _ hcall herr husp hubyte
  rcases execCall_cases a s with ⟨r, v, hpc, hr, hv, -⟩ | ⟨-, hfault⟩
  · have hsp := (State.decSp_eq_some.1 hv).1
    obtain ⟨t', ht', htsp, hbyte, -⟩ := (callStacksReturnAddress a s).1 r hwf (by omega) hr hsp
    obtain rfl := Host.Outcome.next.inj (hcall.symm.trans ht')
    rw [← husp] at htsp
    have htop : u.sp.toNat ≠ 255 := by
      have := s.sp.isLt
      omega
    obtain ⟨w, hret, hwpc, hwsp, -⟩ := (retPopsIntoPc u).1 htop
    exact ⟨w, hret, by rw [hwpc, hubyte, hbyte], by bv_omega⟩
  · cases hcall.symm.trans hfault
    cases herr

end Sys2Proof.Machine
end

section
/-! The faults of a cycle (spec/60_exceptions.md R191, R192, R196): the checks of each instruction, that it faults
exactly when one of them fails, and that on the bytes a cycle fetches they are the conditions of R192's table. Then the
exit contract (R194, R200). -/

namespace Sys2Proof.Machine

open Sys2Proof.Claims

variable {s t : State} {i : Instr} {o : Op} {byte : Byte}

/-! ### When an instruction faults -/

/-- One of the checks of the instruction fails at `s`: that the operand bytes it uses exist, that its register operands
are at most 7, that SP and a return address are bytes. -/
def FaultCondition (s : State) : Instr → Prop
  | .nop | .hlt => False
  | .ldi a _ => 255 < s.pc.toNat + 2 ∨ 7 < a.toNat
  | .add a b | .mul a b | .cmp a b => 255 < s.pc.toNat + 2 ∨ 7 < a.toNat ∨ 7 < b.toNat
  | .prn a | .jmp a => 255 < s.pc.toNat + 1 ∨ 7 < a.toNat
  | .push a => 255 < s.pc.toNat + 1 ∨ 7 < a.toNat ∨ s.sp.toNat = 0
  | .pop a => 255 < s.pc.toNat + 1 ∨ 7 < a.toNat ∨ (if a.toNat = 7 then s.readByte s.sp else s.sp).toNat = 255
  | .call a => 255 < s.pc.toNat + 2 ∨ 7 < a.toNat ∨ s.sp.toNat = 0
  | .ret => s.sp.toNat = 255
  | .jeq a => Flags.equalSet s.fl = true ∧ (255 < s.pc.toNat + 1 ∨ 7 < a.toNat)
  | .jne a => Flags.equalSet s.fl = false ∧ (255 < s.pc.toNat + 1 ∨ 7 < a.toNat)

/-- `r` is the fault taken from `s` if `bad` holds, and otherwise a next state with the fault record of `s`. -/
def FaultsExactlyIf (s : State) (bad : Prop) (r : StepOutcome) : Prop :=
  (bad ∧ r = .next (s.raise (.outOfBounds s.pc))) ∨ (¬ bad ∧ ∃ t, r = .next t ∧ t.err = s.err)

/-- The shared course of ADD, MUL and CMP. -/
theorem aluInstruction_faultsExactlyIf (op : AluOp) (a b : Byte) (s : State) :
    FaultsExactlyIf s (255 < s.pc.toNat + 2 ∨ 7 < a.toNat ∨ 7 < b.toNat) (aluInstruction op a b s) := by
  rcases aluInstruction_cases a b s op with ⟨d, r, hpc, hd, hr, he⟩ | hfault
  · exact .inr ⟨by omega, _, he, by cases op <;> rfl⟩
  · exact .inl hfault

/-- The jump of JMP and of a branch that is taken. -/
theorem execJmp_faultsExactlyIf (a : Byte) (s : State) :
    FaultsExactlyIf s (255 < s.pc.toNat + 1 ∨ 7 < a.toNat) (execJmp a s) := by
  rcases execJmp_cases a s with ⟨r, hpc, hr, he⟩ | hfault
  · exact .inr ⟨by omega, _, he, rfl⟩
  · exact .inl hfault

theorem exec_faultsExactlyIf (i : Instr) (s : State) : FaultsExactlyIf s (FaultCondition s i) (exec i s) := by
  cases i with
  | nop | hlt => exact .inr ⟨id, _, rfl, rfl⟩
  | add a b | mul a b | cmp a b => exact aluInstruction_faultsExactlyIf _ a b s
  | jmp a => exact execJmp_faultsExactlyIf a s
  | jeq a =>
    rw [FaultCondition, exec]
    rcases execJeq_cases a s with ⟨hE, he⟩ | ⟨hE, he⟩
    · rw [he, and_iff_right hE]
      exact execJmp_faultsExactlyIf a s
    · exact .inr ⟨by simp [hE], _, he, rfl⟩
  | jne a =>
    rw [FaultCondition, exec]
    rcases execJne_cases a s with ⟨hE, he⟩ | ⟨hE, he⟩
    · rw [he, and_iff_right hE]
      exact execJmp_faultsExactlyIf a s
    · exact .inr ⟨by simp [hE], _, he, rfl⟩
  | ldi a b =>
    rcases execLdi_cases a b s with ⟨d, hpc, hd, he⟩ | hfault
    · exact .inr ⟨by rw [FaultCondition]; omega, _, he, rfl⟩
    · exact .inl hfault
  | prn a =>
    rcases execPrn_cases a s with ⟨r, hpc, hr, he⟩ | hfault
    · exact .inr ⟨by rw [FaultCondition]; omega, _, he, rfl⟩
    · exact .inl hfault
  | push a =>
    rcases execPush_cases a s with ⟨r, u, hpc, hr, hu, he⟩ | hfault
    · obtain ⟨hsp, rfl⟩ := State.decSp_eq_some.1 hu
      exact .inr ⟨by rw [FaultCondition]; omega, _, he, rfl⟩
    · exact .inl hfault
  | call a =>
    rcases execCall_cases a s with ⟨r, u, hpc, hr, hu, he⟩ | hfault
    · obtain ⟨hsp, rfl⟩ := State.decSp_eq_some.1 hu
      exact .inr ⟨by rw [FaultCondition]; omega, _, he, rfl⟩
    · exact .inl hfault
  | ret =>
    rcases execRet_cases s with ⟨u, hu, he⟩ | hfault
    · obtain ⟨hsp, rfl⟩ := State.incSp_eq_some.1 hu
      exact .inr ⟨hsp, _, he, rfl⟩
    · exact .inl hfault
  | pop a =>
    rcases execPop_cases a s with ⟨d, u, hpc, hd, hu, he⟩ | ⟨hbad, he⟩
    · obtain ⟨hsp, rfl⟩ := State.incSp_eq_some.1 hu
      rw [State.sp_setReg_of_operand hd] at hsp
      exact .inr ⟨by rw [FaultCondition]; omega, _, he, rfl⟩
    · refine .inl ⟨hbad.imp_right (.imp_right ?_), he⟩
      rintro ⟨d, hd, hsp⟩
      rwa [State.sp_setReg_of_operand hd] at hsp

/-- From a state without a fault record, an instruction ends with OutOfBounds recorded or with no fault recorded. -/
theorem exec_err_cases (herr : s.err = .none) (h : exec i s = .next t) :
    (FaultCondition s i ∧ t.err = .outOfBounds s.pc) ∨ (¬ FaultCondition s i ∧ t.err = .none) := by
  rcases exec_faultsExactlyIf i s with ⟨hbad, he⟩ | ⟨hgood, u, he, hkept⟩
  · cases h.symm.trans he
    exact .inl ⟨hbad, rfl⟩
  · cases h.symm.trans he
    exact .inr ⟨hgood, hkept.trans herr⟩

/-! ### The conditions on the bytes a cycle fetches -/

theorem State.exists_byteAt_iff {k : Nat} {p : Byte → Prop} :
    (∃ a, s.byteAt (s.pc.toNat + k) = some a ∧ p a) ↔ s.pc.toNat + k ≤ 255 ∧ p (s.eagerByte k) := by
  by_cases hk : s.pc.toNat + k ≤ 255
  · simp [State.eagerByte, State.byteAt_of_le hk, hk]
  · simp [State.byteAt_of_gt (Nat.lt_of_not_le hk), hk]

/-- Conditions 2 to 7 of R192 are the failed checks of the instruction that the cycle executes. -/
theorem outOfBoundsOperands_iff (s : State) (o : Op) :
    OutOfBoundsOperands s o ↔ FaultCondition s (o.instr (s.eagerByte 1) (s.eagerByte 2)) := by
  simp only [OutOfBoundsOperands, State.exists_byteAt_iff]
  cases o with
  | nop | hlt | ret => simp [UsesA, UsesB, Op.instr, FaultCondition]
  | jeq | jne =>
    simp only [UsesA, UsesB, Op.instr, FaultCondition, reduceCtorEq, false_and, or_false, false_or, ← and_or_left]
    exact and_congr_right fun _ => by omega
  | ldi | prn | add | mul | cmp | push | pop | call | jmp =>
    simp only [UsesA, UsesB, Op.instr, FaultCondition, reduceCtorEq, true_and, false_and, or_false, false_or, or_true]
    omega

theorem opcodeIs_iff : OpcodeIs s o ↔ s.pc.toNat ≤ 255 ∧ Op.ofByte opc s.opcodeByte = some o := by
  rw [OpcodeIs, State.byteAt_eq_some, Op.ofByte_eq_some opc_valid, eq_comm (a := opc o)]
  rfl

theorem byteAt_pc_no_row_iff : (s.byteAt s.pc.toNat = some byte ∧ ∀ o : Op, opc o ≠ byte) ↔
    s.pc.toNat ≤ 255 ∧ s.opcodeByte = byte ∧ Op.ofByte opc s.opcodeByte = none := by
  rw [State.byteAt_eq_some, ← Op.ofByte_eq_none, and_assoc]
  refine and_congr_right fun _ => and_congr_right fun h => ?_
  rw [State.opcodeByte, h]

/-- Settles O22, by the ways a cycle can go and, for one that executes, `exec_err_cases`. -/
theorem faultsExactlyAsListed : Obligations.FaultsExactlyAsListed := by
  intro s t hrun herr h
  simp only [byteAt_pc_no_row_iff, opcodeIs_iff, outOfBoundsOperands_iff]
  rcases step_cases s with ⟨hhalted, -⟩ | ⟨-, hpc, he⟩ | ⟨-, hpc, ho, he⟩ | ⟨o, -, hpc, ho, he⟩
  · cases hrun.symm.trans hhalted
  · cases h.symm.trans he
    simp [hpc]
  · cases h.symm.trans he
    simp [hpc, ho]
  · rcases exec_err_cases herr (he.symm.trans h) with ⟨hbad, ht⟩ | ⟨hgood, ht⟩
    · simp [hpc, ho, ht, hbad]
    · simp [hpc, ho, ht, hgood]

/-! ### The exit contract -/

theorem State.exitStatus_eq_some {n : Nat} :
    s.status.exitStatus = some n ↔ s.run = .halted ∧ s.err.code = n := by
  cases hrun : s.run <;> simp [State.status, Status.exitStatus, hrun]

theorem State.exitStatus_eq_none : s.status.exitStatus = none ↔ s.run = .running := by
  cases hrun : s.run <;> simp [State.status, Status.exitStatus, hrun]

theorem FaultRecord.code_eq_zero {r : FaultRecord} : r.code = 0 ↔ r = .none := by
  cases r <;> simp [FaultRecord.code]

theorem FaultRecord.code_eq_one {r : FaultRecord} : r.code = 1 ↔ ∃ p byte, r = .unsupportedOpcode p byte := by
  cases r <;> simp [FaultRecord.code]

theorem FaultRecord.code_eq_two {r : FaultRecord} : r.code = 2 ↔ ∃ p, r = .outOfBounds p := by
  cases r <;> simp [FaultRecord.code]

/-- Settles O6: the exit status of a Halted core is the code of its fault record, and the three codes differ. -/
theorem exitStatusContract : Obligations.ExitStatusContract := fun _ =>
  ⟨State.exitStatus_eq_some.trans (and_congr_right fun _ => FaultRecord.code_eq_zero),
    State.exitStatus_eq_some.trans (and_congr_right fun _ => FaultRecord.code_eq_one),
    State.exitStatus_eq_some.trans (and_congr_right fun _ => FaultRecord.code_eq_two),
    State.exitStatus_eq_none⟩

end Sys2Proof.Machine
end

section
/-! The host interface (spec/70_reset_and_hazards.md R226 to R232): what the loader's writes leave in memory, what the
debug and status reads report, the moves of a session, and the one result of a run. -/

namespace Sys2Proof.Machine

open Sys2Proof.Claims

variable {s t u : State} {x : Session} {fl0 : Byte}

/-! ### Bytes stored at consecutive addresses -/

theorem State.placeBytes_cons {a : Nat} (ha : a ≤ 255) (s : State) (v : Byte) (rest : List Byte) :
    s.placeBytes a (v :: rest) = ({ s with mem := Memory.write s.mem a v } : State).placeBytes (a + 1) rest :=
  if_pos ha

/-- An address in front of the bytes or behind them keeps its byte. -/
theorem State.read_placeBytes_outside (bs : List Byte) {x : Nat} :
    ∀ {s : State} {a : Nat}, x < a ∨ a + bs.length ≤ x →
      Memory.read (s.placeBytes a bs).mem x = Memory.read s.mem x := by
  induction bs with
  | nil => exact fun _ => rfl
  | cons v rest ih =>
    intro s a hout
    rw [List.length_cons] at hout
    by_cases ha : a ≤ 255
    · rw [State.placeBytes_cons ha, ih (by omega)]
      exact Memory.read_write_ne (by omega) v s.mem
    · rw [State.placeBytes, if_neg ha]

/-- Each of the bytes that has a cell stands at its address. -/
theorem State.read_placeBytes_inside (bs : List Byte) :
    ∀ {s : State} {a k : Nat} (hk : k < bs.length), Memory.wf s.mem = true → a + k ≤ 255 →
      Memory.read (s.placeBytes a bs).mem (a + k) = bs[k] := by
  induction bs with
  | nil => exact fun hk => absurd hk (Nat.not_lt_zero _)
  | cons v rest ih =>
    intro s a k hk hwf hcell
    have ha : a ≤ 255 := by omega
    rw [State.placeBytes_cons ha]
    cases k with
    | zero =>
      have hkept := State.read_placeBytes_outside rest
        (s := { s with mem := Memory.write s.mem a v }) (.inl (Nat.lt_succ_self a))
      exact hkept.trans ((Memory.read_write hwf a v a).trans (if_pos rfl))
    | succ k =>
      have hwf' : Memory.wf (Memory.write s.mem a v) = true := Memory.write_wf (Nat.lt_succ_of_le ha) v hwf
      rw [List.getElem_cons_succ, Nat.add_comm k 1, ← Nat.add_assoc]
      exact ih (Nat.lt_of_succ_lt_succ hk) hwf' (by omega)

/-! ### Load (R227) -/

theorem load_of_length_le {program : List Byte} (h : program.length ≤ 256) (s : State) :
    load program s = .next (s.loadProgram program) :=
  load_eq_next.2 ⟨h, rfl⟩

theorem load_of_length_gt {program : List Byte} (h : 256 < program.length) (s : State) :
    load program s = .refused .programTooLong :=
  if_neg (Nat.not_le.2 h)

theorem State.loadProgram_readByte_inside (hwf : Memory.wf s.mem = true) {program : List Byte} {a : Byte}
    (h : a.toNat < program.length) : (s.loadProgram program).readByte a = program[a.toNat] := by
  have hread := State.read_placeBytes_inside program (a := 0) h hwf (by omega)
  rwa [Nat.zero_add] at hread

theorem State.loadProgram_readByte_behind {program : List Byte} {a : Byte} (h : program.length ≤ a.toNat) :
    (s.loadProgram program).readByte a = s.readByte a :=
  State.read_placeBytes_outside program (.inr ((Nat.zero_add _).trans_le h))

theorem State.loadProgram_sp (s : State) (program : List Byte) : (s.loadProgram program).sp = Config.spReset :=
  State.sp_setReg_sp _ _

/-- Load writes memory and SP only. -/
theorem State.loadProgram_frame (s : State) (program : List Byte) :
    RegsKept [7] s (s.loadProgram program) ∧ (s.loadProgram program).pc = s.pc ∧
      (s.loadProgram program).fl = s.fl ∧ (s.loadProgram program).run = s.run ∧
      (s.loadProgram program).err = s.err ∧ (s.loadProgram program).out = s.out := by
  refine ⟨fun i hi => ?_, s.placeBytes_pc _ _, s.placeBytes_fl _ _, s.placeBytes_run _ _, s.placeBytes_err _ _,
    s.placeBytes_out _ _⟩
  calc (s.loadProgram program).reg i
    _ = (s.placeBytes Config.loadBase program).reg i := State.reg_setReg_ne _ _ (List.mem_singleton.not.1 hi)
    _ = s.reg i := by rw [State.reg, State.placeBytes_regs, State.reg]

theorem State.Inv.loadProgram (h : s.Inv fl0) (hrun : s.run = .running) (program : List Byte) :
    (s.loadProgram program).Inv fl0 := by
  obtain ⟨-, hpc, hfl, hrun', herr, -⟩ := s.loadProgram_frame program
  exact
    { mem_wf := State.placeBytes_wf program h.mem_wf
      pc_le := hpc ▸ h.pc_le
      flags := hfl ▸ h.flags
      end_fits := State.endFits_of_running (hrun'.trans hrun) (herr.trans (h.end_fits.err_eq_none hrun)) }

/-- Settles O4: the loaded state differs from the reset state in the program's bytes only. -/
theorem loadPlacesProgram : Obligations.LoadPlacesProgram := by
  refine fun program fl =>
    ⟨fun hlen => ⟨_, load_of_length_le hlen _, ?_⟩, fun hlong => load_of_length_gt hlong _⟩
  obtain ⟨hregs, hpc, hfl, hrun, herr, hout⟩ := (State.resetWith fl).loadProgram_frame program
  refine ⟨fun a h => State.loadProgram_readByte_inside (State.resetWith_wf fl) h,
    fun a h => State.loadProgram_readByte_behind h, fun i hi => ?_,
    congrArg BitVec.toNat (State.loadProgram_sp _ program), congrArg BitVec.toNat hpc, hfl, hrun, herr, hout,
    (State.resetWith_inv fl).loadProgram rfl program⟩
  exact (hregs i (List.mem_singleton.not.2 hi)).trans (State.resetWith_reg hi fl)

/-! ### Debug read (R230) and status (R231) -/

theorem State.byteAt_of_toNat_eq {a : Byte} {n : Nat} (h : a.toNat = n) : s.byteAt n = some (s.readByte a) :=
  h ▸ s.byteAt_toNat a

/-- Settles O5: each reported byte is `State.byteAt` at its address. -/
theorem debugReadReportsNextFetch : Obligations.DebugReadReportsNextFetch := fun _ _ _ _ =>
  ⟨rfl, State.byteAt_of_toNat_eq, State.byteAt_of_toNat_eq, State.byteAt_of_toNat_eq,
    State.byteAt_of_gt, State.byteAt_of_gt, State.byteAt_of_gt⟩

/-- Settles O7: cycles change nothing at a Halted state, and a fault keeps the pc (`faultsArePrecise`). -/
theorem statusIsFinalOnceHalted : Obligations.StatusIsFinalOnceHalted := by
  refine ⟨fun s => ⟨rfl, rfl, rfl⟩, fun k s t hrun h => ?_, fun s t herr h hne => ?_⟩
  · obtain rfl : s = t := Host.Outcome.next.inj ((runFrom_of_halted hrun k).symm.trans h)
    rfl
  · obtain ⟨-, hprecise⟩ := faultsArePrecise
    obtain ⟨-, -, -, -, -, hpc, -⟩ := hprecise s t herr h hne
    exact hpc

/-! ### The moves of a session that are answered (R226) -/

theorem Session.move_load (h : x.phase = .afterReset) (program : List Byte) :
    x.move (.load program) = Session.lift .loaded (load program x.core) := by
  simp only [Session.move, h]

theorem Session.move_start (h : x.phase = .loaded) : x.move .start = .next ⟨.started, x.core⟩ := by
  simp only [Session.move, h]

theorem Session.move_cycle (h : x.phase = .started) : x.move .cycle = Session.lift .started (step x.core) := by
  simp only [Session.move, h]

/-- Settles O8: each move is answered in its phase, and `Session.move_cases` is the converse. -/
theorem hostMovesOnlyInTheirPhase : Obligations.HostMovesOnlyInTheirPhase := by
  refine ⟨fun _ _ => rfl, fun x program hphase hlen => ?_, fun x => Session.move_start, fun x hphase => ?_,
    fun x y m h => ?_⟩
  · have hload := load_of_length_le hlen x.core
    exact ⟨_, hload, by rw [Session.move_load hphase, hload, Session.lift]⟩
  · obtain ⟨t, ht⟩ := step_next x.core
    exact ⟨t, ht, by rw [Session.move_cycle hphase, ht, Session.lift]⟩
  · rcases Session.move_cases h with
      ⟨fl, rfl, rfl⟩ | ⟨program, rfl, hmove⟩ | ⟨rfl, hphase, rfl⟩ | ⟨rfl, hmove⟩
    · exact ⟨rfl, rfl⟩
    · exact hmove
    · exact ⟨hphase, rfl, rfl⟩
    · exact hmove

/-! ### The result of a run (R232) -/

theorem State.result_eq_none : s.result = none ↔ s.run = .running := by
  cases hrun : s.run <;> simp [State.result, hrun]

theorem State.result_of_halted (hrun : s.run = .halted) :
    s.result = some ⟨s.err, s.pc, s.out, s.regs, s.mem⟩ := by
  simp only [State.result, hrun]

theorem State.run_of_result {r : RunResult} (h : s.result = some r) : s.run = .halted := by
  cases hrun : s.run with
  | halted => rfl
  | running => cases (State.result_eq_none.2 hrun).symm.trans h

theorem runFrom_of_halted_le {k l : Nat} (h : runFrom k s = .next t) (hrun : t.run = .halted) (hle : k ≤ l) :
    runFrom l s = .next t := by
  obtain ⟨m, rfl⟩ := Nat.exists_eq_add_of_le hle
  exact (runFrom_add m h).trans (runFrom_of_halted hrun m)

/-- A run reaches one Halted state. -/
theorem runFrom_halted_unique {k l : Nat} (ht : runFrom k s = .next t) (hrun : t.run = .halted)
    (hu : runFrom l s = .next u) (hrun' : u.run = .halted) : t = u := by
  rcases Nat.le_total k l with hle | hle
  · exact Host.Outcome.next.inj ((runFrom_of_halted_le ht hrun hle).symm.trans hu)
  · exact Host.Outcome.next.inj (ht.symm.trans (runFrom_of_halted_le hu hrun' hle))

/-- Settles O19: only Halted states have results, and a run reaches one of them. -/
theorem runHasOneResult : Obligations.RunHasOneResult := by
  refine ⟨fun k l s t => runFrom_of_halted_le, fun k l s t u r r' ht hu hr hr' => ?_,
    fun s => ⟨State.result_eq_none, State.result_of_halted⟩⟩
  obtain rfl := runFrom_halted_unique ht (State.run_of_result hr) hu (State.run_of_result hr')
  exact Option.some.inj (hr.symm.trans hr')

end Sys2Proof.Machine
end
